-- ==== Sys2Proof/Word.lean ====
section
/-! DEFINITION. The word types of the core (spec/00_scope.md R4, R5): bytes, 16-bit words, the 4-bit register
index and the 12-bit address immediate. Bit 0 is the least significant bit. -/

namespace Sys2Proof

/-- 8 bits: a register, a memory byte, the field `nn` (R4). -/
abbrev Byte := BitVec 8

/-- 16 bits: an instruction word, `I`, `pc`, a stack entry, an address (R4). -/
abbrev Word := BitVec 16

/-- 4 bits: the fields `class`, `x`, `y` and `n` (R46). -/
abbrev Nibble := BitVec 4

/-- A register index: 4 bits, so that no index is out of range (R12). -/
abbrev RegIdx := BitVec 4

/-- The 12-bit address immediate `nnn` (R46). -/
abbrev Addr12 := BitVec 12

end Sys2Proof
end

