-- ==== Sys2Proof/Config.lean ====
section
/-! DEFINITION. What an instance of the core fixes (spec/00_scope.md R4), and the one free value: the random byte
(spec/43_index_random.md R103). The parameters are a field of the machine's state, so that a statement about every
state is a statement about every instance (log 1). -/

namespace Sys2Proof

/-- The open parameters of R4. No instruction changes one. -/
structure Config where
  /-- `MEM_SIZE` (R33): the Memory Store holds the addresses 0 to `memSize - 1`. -/
  memSize : Nat
  /-- `STACK_DEPTH` (R20): `none` is the unbounded stack of the document. -/
  stackDepth : Option Nat
  /-- `ADD_I_NN` (R57): the low byte that selects `ADD_I` in class 0xF. -/
  addINN : Byte
deriving DecidableEq, Repr

/-- The values of the parameters in `State.reset`: a full 64 KiB store (DESIGN CHOICE, log 2), the spec's default
unbounded stack (log 3) and the spec's default 0x1E (PRESUMED, log 4). -/
def Config.standard : Config := { memSize := 65536, stackDepth := none, addINN := 0x1E#8 }

/-- FREE VALUE: the byte the random source gives at the `k`-th draw that no supplied byte answers (R103: any of the
256 values; log 8). Nothing can be proved about its value. -/
opaque Config.freeRandomByte : Nat → Byte

end Sys2Proof
end

