-- ==== Sys2Proof/Syntax.lean ====
section
/-! DEFINITION. The instruction set: one constructor per row of spec/opcode_table.json, the 24 rows of
spec/30_encoding.md R50 and the halt-word row HALT0 (R51). Operand fields are the fields of R46. A constructor whose
row has a don't-care nibble (R49) carries it as its last argument `dc`, so that no bit of a word is lost; no meaning
reads it (log 13). -/

namespace Sys2Proof

/-- One decoded instruction word. -/
inductive Instr where
  /-- 0x0·E0, clear display (R105) -/
  | cls (dc : Nibble)
  /-- 0x0·EE, return (R71) -/
  | ret (dc : Nibble)
  /-- 0x1nnn, jump (R72) -/
  | jp (nnn : Addr12)
  /-- 0x2nnn, call (R73) -/
  | call (nnn : Addr12)
  /-- 0x3xnn, skip if equal to immediate (R74) -/
  | seImm (x : RegIdx) (nn : Byte)
  /-- 0x4xnn, skip if not equal to immediate (R75) -/
  | sneImm (x : RegIdx) (nn : Byte)
  /-- 0x5xy·, skip if registers equal (R76) -/
  | seReg (x y : RegIdx) (dc : Nibble)
  /-- 0x6xnn, load immediate (R81) -/
  | ldImm (x : RegIdx) (nn : Byte)
  /-- 0x7xnn, add immediate (R82) -/
  | addImm (x : RegIdx) (nn : Byte)
  /-- 0x8xy0, load register (R83) -/
  | ldReg (x y : RegIdx)
  /-- 0x8xy1 (R84) -/
  | or (x y : RegIdx)
  /-- 0x8xy2 (R85) -/
  | and (x y : RegIdx)
  /-- 0x8xy3 (R86) -/
  | xor (x y : RegIdx)
  /-- 0x8xy4, add with carry out (R87) -/
  | addReg (x y : RegIdx)
  /-- 0x8xy5, subtract (R88) -/
  | sub (x y : RegIdx)
  /-- 0x8x·6, shift right by one (R89) -/
  | shr (x : RegIdx) (dc : Nibble)
  /-- 0x8xy7, reverse subtract (R90) -/
  | subn (x y : RegIdx)
  /-- 0x8x·E, shift left by one (R91) -/
  | shl (x : RegIdx) (dc : Nibble)
  /-- 0x9xy·, skip if registers differ (R77) -/
  | sneReg (x y : RegIdx) (dc : Nibble)
  /-- 0xAnnn, load the index register (R100) -/
  | ldI (nnn : Addr12)
  /-- 0xBnnn, jump to V[0] + nnn (R78) -/
  | jpV0 (nnn : Addr12)
  /-- 0xCxnn, random and immediate (R102) -/
  | rnd (x : RegIdx) (nn : Byte)
  /-- 0xDxyn, draw sprite (R106) -/
  | drw (x y : RegIdx) (n : Nibble)
  /-- 0xFx1E, add to the index register (R101); the low byte is the parameter `ADD_I_NN` (R57) -/
  | addI (x : RegIdx)
  /-- The halt word 0x0000 (R51, R62): a row of the table, not an instruction -/
  | halt0
deriving DecidableEq, Repr

end Sys2Proof
end

