-- ==== Sys2Proof/WellFormed.lean ====
section
/-! DEFINITION. What is well formed: a term of `Instr` that is an instruction, an instance's parameters, and a program
image that fits the store. The fields of `Instr` need no range check: they have the widths of spec/30_encoding.md R46,
so that "no out-of-range index can occur" (spec/10_state.md R12). -/

namespace Sys2Proof

/-- The 24 instructions of R50 are well formed; the halt word "is not an instruction" (R51). -/
def Instr.wellFormed : Instr → Bool
  | .halt0 => false
  | .cls _ | .ret _ | .jp _ | .call _ | .seImm _ _ | .sneImm _ _ | .seReg _ _ _ | .ldImm _ _ | .addImm _ _
  | .ldReg _ _ | .or _ _ | .and _ _ | .xor _ _ | .addReg _ _ | .sub _ _ | .shr _ _ | .subn _ _ | .shl _ _
  | .sneReg _ _ _ | .ldI _ | .jpV0 _ | .rnd _ _ | .drw _ _ _ | .addI _ => true

/-- "Canonical" (R55): the value 0 in the don't-care nibble, what the spec's examples write there. The hardware accepts
any value (R49), so nothing but a listing depends on this check. -/
def Instr.canonical : Instr → Bool
  | .cls dc | .ret dc => dc == 0#4
  | .seReg _ _ dc | .sneReg _ _ dc => dc == 0#4
  | .shr _ dc | .shl _ dc => dc == 0#4
  | .jp _ | .call _ | .seImm _ _ | .sneImm _ _ | .ldImm _ _ | .addImm _ _ | .ldReg _ _ | .or _ _ | .and _ _
  | .xor _ _ | .addReg _ _ | .sub _ _ | .subn _ _ | .ldI _ | .jpV0 _ | .rnd _ _ | .drw _ _ _ | .addI _
  | .halt0 => true

/-- `MEM_SIZE` is "1 to 65536 bytes" (R33); the other parameters are unconstrained (R20, R57). -/
def Config.wellFormed (c : Config) : Bool :=
  decide (1 ≤ c.memSize) && decide (c.memSize ≤ 65536)

/-- A program image, laid out from the origin 0x200, lies inside the store (R133, R134 a). -/
def imageFits (c : Config) (image : List Byte) : Bool :=
  decide (0x200 + image.length ≤ c.memSize)

end Sys2Proof
end

