-- ==== Sys2Proof/Decode.lean ====
section
/-! DEFINITION. Fields, decoder, encoder and opcode map (spec/30_encoding.md R45 to R57, spec/40_step_fetch_decode.md
R62 to R64). The decoder is the decision tree of R64, the encoder the layouts of R55, the map the masks and matches
of R50. The parameter `addINN` of each is `ADD_I_NN` (R57). -/

namespace Sys2Proof

/-! ## Fields (R46, R63) -/

/-- Bits 15 to 12: the opcode family. -/
def fieldClass (w : Word) : Nibble := w.extractLsb' 12 4
/-- Bits 11 to 8: register operand 1. -/
def fieldX (w : Word) : Nibble := w.extractLsb' 8 4
/-- Bits 7 to 4: register operand 2. -/
def fieldY (w : Word) : Nibble := w.extractLsb' 4 4
/-- Bits 3 to 0: 4-bit immediate or selector. -/
def fieldN (w : Word) : Nibble := w.extractLsb' 0 4
/-- Bits 7 to 0: 8-bit immediate or selector. -/
def fieldNN (w : Word) : Byte := w.extractLsb' 0 8
/-- Bits 11 to 0: 12-bit address immediate. -/
def fieldNNN (w : Word) : Addr12 := w.extractLsb' 0 12

/-- Big-endian: the byte at the lower address is the high byte of the word (R34). -/
def joinBytes (hi lo : Byte) : Word := hi.setWidth 16 <<< 8 ||| lo.setWidth 16
/-- The byte of a word that lies at the lower address (R34). -/
def highByte (w : Word) : Byte := w.extractLsb' 8 8
/-- The byte of a word that lies at the higher address (R34). -/
def lowByte (w : Word) : Byte := w.extractLsb' 0 8

/-! ## Decoder -/

/-- Class 0x0 selects on `nn` (R64). -/
def decodeClass0 (w : Word) : Option Instr :=
  match fieldNN w with
  | 0xE0#8 => some (.cls (fieldX w))
  | 0xEE#8 => some (.ret (fieldX w))
  | _ => none

/-- Class 0x8 selects on `n` (R64). -/
def decodeClass8 (w : Word) : Option Instr :=
  match fieldN w with
  | 0x0#4 => some (.ldReg (fieldX w) (fieldY w))
  | 0x1#4 => some (.or (fieldX w) (fieldY w))
  | 0x2#4 => some (.and (fieldX w) (fieldY w))
  | 0x3#4 => some (.xor (fieldX w) (fieldY w))
  | 0x4#4 => some (.addReg (fieldX w) (fieldY w))
  | 0x5#4 => some (.sub (fieldX w) (fieldY w))
  | 0x6#4 => some (.shr (fieldX w) (fieldY w))
  | 0x7#4 => some (.subn (fieldX w) (fieldY w))
  | 0xE#4 => some (.shl (fieldX w) (fieldY w))
  | _ => none

/-- Class 0xF selects on `nn`, against the parameter (R57, R64). -/
def decodeClassF (addINN : Byte) (w : Word) : Option Instr :=
  if fieldNN w = addINN then some (.addI (fieldX w)) else none

/-- The decision tree of R64; class 0xE holds no instruction, and class 0xF is the last arm. -/
def decodeTree (addINN : Byte) (w : Word) : Option Instr :=
  match fieldClass w with
  | 0x0#4 => decodeClass0 w
  | 0x1#4 => some (.jp (fieldNNN w))
  | 0x2#4 => some (.call (fieldNNN w))
  | 0x3#4 => some (.seImm (fieldX w) (fieldNN w))
  | 0x4#4 => some (.sneImm (fieldX w) (fieldNN w))
  | 0x5#4 => some (.seReg (fieldX w) (fieldY w) (fieldN w))
  | 0x6#4 => some (.ldImm (fieldX w) (fieldNN w))
  | 0x7#4 => some (.addImm (fieldX w) (fieldNN w))
  | 0x8#4 => decodeClass8 w
  | 0x9#4 => some (.sneReg (fieldX w) (fieldY w) (fieldN w))
  | 0xA#4 => some (.ldI (fieldNNN w))
  | 0xB#4 => some (.jpV0 (fieldNNN w))
  | 0xC#4 => some (.rnd (fieldX w) (fieldNN w))
  | 0xD#4 => some (.drw (fieldX w) (fieldY w) (fieldN w))
  | 0xE#4 => none
  | _ => decodeClassF addINN w

/-- The halt word is tested on the whole word, before the class (R62); `none` is "unrecognised" (R52). -/
def decodeWord (addINN : Byte) (w : Word) : Option Instr :=
  if w = 0x0000#16 then some .halt0 else decodeTree addINN w

/-- Why bytes are no instruction. -/
inductive DecodeReject where
  /-- A whole word that is not 0x0000 and matches no row (R52). -/
  | unknownOpcode (word : Word)
  /-- Fewer than the two bytes every instruction has (R45). -/
  | tooShort (length : Nat)
deriving DecidableEq, Repr

/-- Decode the first two bytes of any bytes, and give back the rest (R45, R34). -/
def decodeBytes (addINN : Byte) : List Byte → Except DecodeReject (Instr × List Byte)
  | hi :: lo :: rest =>
    match decodeWord addINN (joinBytes hi lo) with
    | some i => .ok (i, rest)
    | none => .error (.unknownOpcode (joinBytes hi lo))
  | short => .error (.tooShort short.length)

/-! ## Encoder (R55) -/

/-- A word of the shape class, x, y, n. -/
def wordXYN (c x y n : Nibble) : Word :=
  c.setWidth 16 <<< 12 ||| x.setWidth 16 <<< 8 ||| y.setWidth 16 <<< 4 ||| n.setWidth 16
/-- A word of the shape class, x, nn. -/
def wordXNN (c x : Nibble) (nn : Byte) : Word := c.setWidth 16 <<< 12 ||| x.setWidth 16 <<< 8 ||| nn.setWidth 16
/-- A word of the shape class, nnn. -/
def wordNNN (c : Nibble) (nnn : Addr12) : Word := c.setWidth 16 <<< 12 ||| nnn.setWidth 16

/-- The word of an instruction. -/
def encode (addINN : Byte) : Instr → Word
  | .cls dc => wordXNN 0x0#4 dc 0xE0#8
  | .ret dc => wordXNN 0x0#4 dc 0xEE#8
  | .jp nnn => wordNNN 0x1#4 nnn
  | .call nnn => wordNNN 0x2#4 nnn
  | .seImm x nn => wordXNN 0x3#4 x nn
  | .sneImm x nn => wordXNN 0x4#4 x nn
  | .seReg x y dc => wordXYN 0x5#4 x y dc
  | .ldImm x nn => wordXNN 0x6#4 x nn
  | .addImm x nn => wordXNN 0x7#4 x nn
  | .ldReg x y => wordXYN 0x8#4 x y 0x0#4
  | .or x y => wordXYN 0x8#4 x y 0x1#4
  | .and x y => wordXYN 0x8#4 x y 0x2#4
  | .xor x y => wordXYN 0x8#4 x y 0x3#4
  | .addReg x y => wordXYN 0x8#4 x y 0x4#4
  | .sub x y => wordXYN 0x8#4 x y 0x5#4
  | .shr x dc => wordXYN 0x8#4 x dc 0x6#4
  | .subn x y => wordXYN 0x8#4 x y 0x7#4
  | .shl x dc => wordXYN 0x8#4 x dc 0xE#4
  | .sneReg x y dc => wordXYN 0x9#4 x y dc
  | .ldI nnn => wordNNN 0xA#4 nnn
  | .jpV0 nnn => wordNNN 0xB#4 nnn
  | .rnd x nn => wordXNN 0xC#4 x nn
  | .drw x y n => wordXYN 0xD#4 x y n
  | .addI x => wordXNN 0xF#4 x addINN
  | .halt0 => 0x0000#16

/-- The bytes of an instruction, the high byte first (R34). -/
def encodeBytes (addINN : Byte) (i : Instr) : List Byte :=
  [highByte (encode addINN i), lowByte (encode addINN i)]

/-! ## The opcode map (R50) -/

/-- One row of the opcode map: a word selects it when `w &&& mask = value`. `operands` has a 1 at every bit of an
operand field; the bits in neither mask are the row's don't-care bits (R49). -/
structure OpcodeRow where
  mnemonic : String
  mask : Word
  value : Word
  operands : Word
deriving DecidableEq, Repr

/-- `(w & mask) == match` (R50). -/
def OpcodeRow.selects (r : OpcodeRow) (w : Word) : Bool := w &&& r.mask == r.value

/-- The row of an instruction, with the mask and match of R50 and, for the halt word, of R51. -/
def opcodeRow (addINN : Byte) : Instr → OpcodeRow
  | .cls _ => ⟨"CLS", 0xF0FF#16, 0x00E0#16, 0x0000#16⟩
  | .ret _ => ⟨"RET", 0xF0FF#16, 0x00EE#16, 0x0000#16⟩
  | .jp _ => ⟨"JP", 0xF000#16, 0x1000#16, 0x0FFF#16⟩
  | .call _ => ⟨"CALL", 0xF000#16, 0x2000#16, 0x0FFF#16⟩
  | .seImm _ _ => ⟨"SE_IMM", 0xF000#16, 0x3000#16, 0x0FFF#16⟩
  | .sneImm _ _ => ⟨"SNE_IMM", 0xF000#16, 0x4000#16, 0x0FFF#16⟩
  | .seReg _ _ _ => ⟨"SE_REG", 0xF000#16, 0x5000#16, 0x0FF0#16⟩
  | .ldImm _ _ => ⟨"LD_IMM", 0xF000#16, 0x6000#16, 0x0FFF#16⟩
  | .addImm _ _ => ⟨"ADD_IMM", 0xF000#16, 0x7000#16, 0x0FFF#16⟩
  | .ldReg _ _ => ⟨"LD_REG", 0xF00F#16, 0x8000#16, 0x0FF0#16⟩
  | .or _ _ => ⟨"OR", 0xF00F#16, 0x8001#16, 0x0FF0#16⟩
  | .and _ _ => ⟨"AND", 0xF00F#16, 0x8002#16, 0x0FF0#16⟩
  | .xor _ _ => ⟨"XOR", 0xF00F#16, 0x8003#16, 0x0FF0#16⟩
  | .addReg _ _ => ⟨"ADD_REG", 0xF00F#16, 0x8004#16, 0x0FF0#16⟩
  | .sub _ _ => ⟨"SUB", 0xF00F#16, 0x8005#16, 0x0FF0#16⟩
  | .shr _ _ => ⟨"SHR", 0xF00F#16, 0x8006#16, 0x0F00#16⟩
  | .subn _ _ => ⟨"SUBN", 0xF00F#16, 0x8007#16, 0x0FF0#16⟩
  | .shl _ _ => ⟨"SHL", 0xF00F#16, 0x800E#16, 0x0F00#16⟩
  | .sneReg _ _ _ => ⟨"SNE_REG", 0xF000#16, 0x9000#16, 0x0FF0#16⟩
  | .ldI _ => ⟨"LD_I", 0xF000#16, 0xA000#16, 0x0FFF#16⟩
  | .jpV0 _ => ⟨"JP_V0", 0xF000#16, 0xB000#16, 0x0FFF#16⟩
  | .rnd _ _ => ⟨"RND", 0xF000#16, 0xC000#16, 0x0FFF#16⟩
  | .drw _ _ _ => ⟨"DRW", 0xF000#16, 0xD000#16, 0x0FFF#16⟩
  | .addI _ => ⟨"ADD_I", 0xF0FF#16, 0xF000#16 ||| addINN.setWidth 16, 0x0F00#16⟩
  | .halt0 => ⟨"HALT0", 0xFFFF#16, 0x0000#16, 0x0000#16⟩

/-- One instruction of each of the rows 1 to 9 of R50. -/
def sampleInstrs1 : List Instr :=
  [.cls 0, .ret 0, .jp 0, .call 0, .seImm 0 0, .sneImm 0 0, .seReg 0 0 0, .ldImm 0 0, .addImm 0 0]

/-- One instruction of each of the rows 10 to 18 of R50. -/
def sampleInstrs2 : List Instr :=
  [.ldReg 0 0, .or 0 0, .and 0 0, .xor 0 0, .addReg 0 0, .sub 0 0, .shr 0 0, .subn 0 0, .shl 0 0]

/-- One instruction of each of the rows 19 to 24 of R50, and the halt word of R51. -/
def sampleInstrs3 : List Instr :=
  [.sneReg 0 0 0, .ldI 0, .jpV0 0, .rnd 0 0, .drw 0 0 0, .addI 0, .halt0]

/-- The 24 rows of R50 in the table's order, and the halt-word row of R51 last. -/
def opcodeMap (addINN : Byte) : List OpcodeRow :=
  (sampleInstrs1 ++ sampleInstrs2 ++ sampleInstrs3).map (opcodeRow addINN)

/-! ## The host's view of a table word -/

/-- The 16-bit word whose bits, numbered as the opcode table numbers them, are the low `nbits` bits of `w`; every
instruction is one 16-bit word (R45). -/
def tableWord (nbits w : Nat) : Word := BitVec.ofNat 16 (w % 2 ^ nbits)

/-- The instruction the decoder reads from the bytes of that word, laid out big-endian, for the default parameters. -/
def decodeTableWord (nbits w : Nat) : Option Instr :=
  match decodeBytes Config.standard.addINN [highByte (tableWord nbits w), lowByte (tableWord nbits w)] with
  | .ok (i, _) => some i
  | .error _ => none

end Sys2Proof
end

