-- ==== Sys2Proof/Machine/State.lean ====
section
/-! DEFINITION. The machine's state, its reset value, and the reasons a step can stop.
The core's own state is `v`, `i`, `pc` and `stack` (spec/10_state.md R10 to R24); the other fields are the instance's
parameters (log 1) and the other arguments and outputs of a step (R22): the Memory Store's bytes (log 6), the random
source (log 8) and the display events (log 9). -/

namespace Sys2Proof.Machine

/-- The bytes of the Memory Store, as a list of address and byte in the canonical form `Memory.wf` (Machine/Ops.lean). -/
abbrev Memory := List Host.Cell

/-- What the core sends to the display (R108): at most one event a step. -/
inductive DisplayEvent where
  /-- `emit Clear` (R105) -/
  | clear
  /-- `emit Draw(x, y, rows)` (R106), row 0 first -/
  | draw (x y : Byte) (rows : List Byte)
deriving DecidableEq, Repr

/-- The random source (R103, log 8): the bytes its environment has already put on the input `rand_byte`, the next one
first, and how many draws have been made. A draw that no supplied byte answers is a free value. -/
structure RandomSource where
  supplied : List Byte
  drawn : Nat
deriving DecidableEq, Repr

/-- The machine. -/
structure State where
  /-- the instance's parameters (R4); no step changes them -/
  cfg : Config
  /-- the register file `V[0]` to `V[15]` (R10) -/
  v : Vector Byte 16
  /-- the index register (R18) -/
  i : Word
  /-- the program counter (R13) -/
  pc : Word
  /-- the call stack (R19), the top entry first (log 10) -/
  stack : List Word
  /-- the Memory Store (R30) -/
  mem : Memory
  /-- the random source (R103) -/
  rand : RandomSource
  /-- the display events emitted so far, the oldest first (R108) -/
  events : List DisplayEvent
deriving DecidableEq, Repr

/-- The fatal conditions of the core (spec/60_exceptions.md R110). A condition "aborts the current step" with the
state unchanged (R116), so it carries the context to report and no state. All three are safe: the step ends where the
hardware's step ends, and the run with it (R119, log 12). -/
inductive Fault where
  /-- The fetched word is 0x0000; raised by `execHalt0`, reports `pc` (R111). Safe. -/
  | haltSignal (pc : Word)
  /-- The word is not 0x0000 and matches no row; raised by `step`, reports the word and `pc` (R112). Safe. -/
  | unknownOpcode (word pc : Word)
  /-- A CALL with `depth = STACK_DEPTH`, finite depth only; raised by `execCall`, reports the word and `pc` (R114,
  R115). Safe. -/
  | stackOverflow (word pc : Word)
deriving DecidableEq, Repr

/-- What the spec gives no meaning to (R126): these are no conditions of the core. -/
inductive Refusal where
  /-- An instruction without a meaning in this model; raised by no arm of `exec`. Safe. -/
  | notModelled (mnemonic : String)
  /-- A read at an address at or above `MEM_SIZE`; raised by the fetch and by DRW (R33). Safe. -/
  | outsideStore (addr : Word)
  /-- An action of the driver other than `step` and `reset`; raised by `drive` (R126). Safe. -/
  | driverAction
  /-- A program image that does not fit the store; raised by `loadImage` (R33, R134 a). Safe. -/
  | imageTooLarge
deriving DecidableEq, Repr

/-- The machine right after reset (R24): registers and `I` zero, `pc` at the origin 0x200, stack empty. The memory
lists nothing (log 5), no byte is supplied (log 8), no event has been emitted (log 9). -/
def State.reset : State where
  cfg := Config.standard
  v := Vector.replicate 16 0x00#8
  i := 0x0000#16
  pc := 0x0200#16
  stack := []
  mem := []
  rand := { supplied := [], drawn := 0 }
  events := []

end Sys2Proof.Machine
end

