-- ==== Sys2Proof/Machine/Ops.lean ====
section
/-! DEFINITION. The named operations over memory, registers, `pc`, the stack, the random source and the display, that
every meaning is written with, and the one way a fatal condition is raised. -/

namespace Sys2Proof.Machine

/-! ## The Memory Store (spec/20_memory.md) -/

/-- What an address not listed reads as: DESIGN CHOICE 0x00 (log 5). -/
def unlistedByte : Byte := 0x00#8

/-- The canonical form: addresses strictly rising, and no entry equal to what an unlisted address reads as. -/
abbrev Memory.wf (m : Memory) : Prop :=
  m.Pairwise (fun c d => c.1 < d.1) ∧ ∀ c ∈ m, c.2 ≠ unlistedByte

/-- The byte the store holds at an address (R31). -/
def Memory.read : Memory → Nat → Byte
  | [], _ => unlistedByte
  | (k, b) :: rest, a => if k = a then b else Memory.read rest a

/-- An entry put in front of a memory, unless it says what an unlisted address reads as anyway. -/
def Memory.put (a : Nat) (b : Byte) (m : Memory) : Memory :=
  if b = unlistedByte then m else (a, b) :: m

/-- The store's `writeByte` (R30). No instruction uses it (R32): it is the ROM loader's (R133). -/
def Memory.write : Memory → Nat → Byte → Memory
  | [], a, b => Memory.put a b []
  | (k, x) :: rest, a, b =>
    if a < k then Memory.put a b ((k, x) :: rest)
    else if a = k then Memory.put a b rest
    else (k, x) :: Memory.write rest a b

/-- A contiguous byte sequence written from an address upwards (R133). -/
def Memory.writeAll : Memory → Nat → List Byte → Memory
  | m, _, [] => m
  | m, a, b :: rest => Memory.writeAll (m.write a b) (a + 1) rest

/-- The address is one the store has (R33). -/
def State.inStore (s : State) (a : Word) : Bool := decide (a.toNat < s.cfg.memSize)

/-- `MemRead(addr, 1)` (R31): one byte, or the refusal of R33. -/
def State.memRead (s : State) (a : Word) : Except Refusal Byte :=
  if s.inStore a then .ok (s.mem.read a.toNat) else .error (.outsideStore a)

/-- `MemRead` at each address in turn; the first one outside the store refuses the whole. -/
def State.memReadAll (s : State) : List Word → Except Refusal (List Byte)
  | [] => .ok []
  | a :: rest =>
    match s.memRead a with
    | .error r => .error r
    | .ok b =>
      match s.memReadAll rest with
      | .error r => .error r
      | .ok bs => .ok (b :: bs)

/-! ## Registers (spec/10_state.md R10 to R12, R18) -/

/-- `V[r]`. -/
def State.reg (s : State) (r : RegIdx) : Byte := s.v[r.toNat]'r.isLt

/-- `V[r] <- b`. -/
def State.setReg (s : State) (r : RegIdx) (b : Byte) : State := { s with v := s.v.set r.toNat b r.isLt }

/-- `I <- a`. -/
def State.setI (s : State) (a : Word) : State := { s with i := a }

/-! ## The program counter (R14, R15) -/

/-- The absolute, computed and popped updates: `pc <- a`. -/
def State.setPc (s : State) (a : Word) : State := { s with pc := a }

/-- The address of the next instruction, `pc +16 2` (R70). -/
def State.pcNext (s : State) : Word := s.pc + 2#16

/-- Where a taken skip goes, `pc +16 4` (R70). -/
def State.pcSkip (s : State) : Word := s.pc + 4#16

/-- The update "next". -/
def State.advance (s : State) : State := s.setPc s.pcNext

/-- A skip: "skip" when the comparison holds, "next" otherwise (R70). -/
def State.skipWhen (s : State) (holds : Bool) : State := s.setPc (if holds then s.pcSkip else s.pcNext)

/-! ## The call stack (R19, R20) -/

/-- `push(a)`. -/
def State.push (s : State) (a : Word) : State := { s with stack := a :: s.stack }

/-- The stack without its top entry. -/
def State.dropTop (s : State) : State := { s with stack := s.stack.tail }

/-- `depth = STACK_DEPTH` (R20, R114); never for the unbounded stack. -/
def State.stackFull (s : State) : Bool := s.cfg.stackDepth == some s.stack.length

/-! ## The random source and the display (R103, R108) -/

/-- The byte the source gives to the next draw: the next supplied one, or the free value (log 8). -/
def RandomSource.byte (r : RandomSource) : Byte := r.supplied.headD (Config.freeRandomByte r.drawn)

/-- The source after one draw. -/
def RandomSource.next (r : RandomSource) : RandomSource := { supplied := r.supplied.tail, drawn := r.drawn + 1 }

/-- The state after one call of `Rand()`; the byte it gave is `s.rand.byte`. -/
def State.drawRandom (s : State) : State := { s with rand := s.rand.next }

/-- `emit e`. -/
def State.emit (s : State) (e : DisplayEvent) : State := { s with events := s.events ++ [e] }

/-! ## Fatal conditions and reset -/

/-- `raise`: the step ends with the condition, and the state is the one before the step (R116); the core has no handler,
saves nothing and changes no mode (R119, log 12). -/
def raiseFatal (f : Fault) : Host.Outcome State Fault Refusal := .fault f

/-- Re-initialisation (spec/70_reset_and_hazards.md R130, R131): the core's four pieces of state take their reset
values; memory, the random source, the display and the parameters are outside the core and stay. -/
def State.reinit (s : State) : State :=
  { s with v := State.reset.v, i := State.reset.i, pc := State.reset.pc, stack := State.reset.stack }

end Sys2Proof.Machine
end

