-- ==== Sys2Proof/Machine/Operands.lean ====
section
/-! DEFINITION. The operand forms (spec/30_encoding.md R48; spec/44_display.md R106): immediates are unsigned fields,
never scaled or shifted. Register operands are `State.reg`; there is no addressing mode but the sprite row's. -/

namespace Sys2Proof.Machine

/-- The register that doubles as the flag output (R11). -/
def flagReg : RegIdx := 0xF#4

/-- The register `JP_V0` names implicitly (R12, R78). -/
def indexJumpReg : RegIdx := 0x0#4

/-- The 12-bit address operand: `zext_16(nnn)`. -/
def addrOperand (nnn : Addr12) : Word := nnn.setWidth 16

/-- A register's byte widened to 16 bits: `zext_16(V[r])`. -/
def wideReg (s : State) (r : RegIdx) : Word := (s.reg r).setWidth 16

/-- The 4-bit count operand: the sprite height. -/
def countOperand (n : Nibble) : Nat := n.toNat

/-- The address of sprite row `k`: `I +16 k` (R37, R106). -/
def rowAddr (base : Word) (k : Nat) : Word := base + BitVec.ofNat 16 k

/-- The addresses of the `n` sprite rows, row 0 first (R106). -/
def rowAddrs (base : Word) (n : Nat) : List Word := (List.range n).map (rowAddr base)

end Sys2Proof.Machine
end

