-- ==== Sys2Proof/Machine/Flags.lean ====
section
/-! DEFINITION. Results and flag values of the arithmetic-logic unit (spec/42_load_alu.md R80 to R93). All operands are
unsigned bytes; a flag is a byte. -/

namespace Sys2Proof.Machine

/-- The widened sum of R87: 9 bits, 0 to 510. -/
def wideSum (a b : Byte) : BitVec 9 := a.setWidth 9 + b.setWidth 9

/-- The stored sum: bits 7 to 0 of the widened sum (R82, R87). -/
def sumByte (a b : Byte) : Byte := (wideSum a b).setWidth 8

/-- The carry of R87: 1 if the widened sum exceeds 0xFF, else 0. -/
def carryFlag (a b : Byte) : Byte := if (wideSum a b).toNat > 0xFF then 0x01#8 else 0x00#8

/-- The stored difference: minuend less subtrahend modulo 256 (R88, R90). -/
def diffByte (minuend subtrahend : Byte) : Byte := minuend - subtrahend

/-- The not-borrow flag, by unsigned comparison: 1 if the minuend is at least the subtrahend, else 0 (R88, R90;
90_conflicts C1, log 15). -/
def notBorrowFlag (minuend subtrahend : Byte) : Byte :=
  if minuend.toNat ≥ subtrahend.toNat then 0x01#8 else 0x00#8

/-- Logical shift right by one (R89). -/
def shrByte (a : Byte) : Byte := a >>> 1

/-- The flag of SHR: bit 0 of the value before the shift (R89). -/
def shrFlag (a : Byte) : Byte := a &&& 0x01#8

/-- Shift left by one, truncated to 8 bits (R91). -/
def shlByte (a : Byte) : Byte := a <<< 1

/-- The flag of SHL: the value before the shift & 0x80, so 0x00 or 0x80 (R91, log 16). -/
def shlFlag (a : Byte) : Byte := a &&& 0x80#8

/-- Phases 2 and 3 of R80: the result to `V[x]`, then the flag to `V[15]`, the flag last (90_conflicts C2, log 17). -/
def State.writeFlagged (s : State) (x : RegIdx) (result flag : Byte) : State :=
  (s.setReg x result).setReg flagReg flag

end Sys2Proof.Machine
end

