-- ==== Sys2Proof/Machine/ControlFlow.lean ====
section
/-! DEFINITION. Control transfer: RET, JP, CALL, the four skips, JP_V0 (spec/41_control_flow.md R70 to R79). -/

namespace Sys2Proof.Machine

/-- R71: pop into `pc`; on an empty stack nothing changes, `pc` included (EmptyStackReturn, R113). -/
def execRet (s : State) : Host.Outcome State Fault Refusal :=
  match s.stack with
  | [] => .next s
  | top :: _ => .next (s.dropTop.setPc top)

/-- R72. -/
def execJp (nnn : Addr12) (s : State) : Host.Outcome State Fault Refusal :=
  .next (s.setPc (addrOperand nnn))

/-- R73: the pushed value is `pc +16 2`; a full finite stack raises StackOverflow with the CALL's word (R115). -/
def execCall (nnn : Addr12) (s : State) : Host.Outcome State Fault Refusal :=
  if s.stackFull then raiseFatal (.stackOverflow (encode s.cfg.addINN (.call nnn)) s.pc)
  else .next ((s.push s.pcNext).setPc (addrOperand nnn))

/-- R74. -/
def execSeImm (x : RegIdx) (nn : Byte) (s : State) : Host.Outcome State Fault Refusal :=
  .next (s.skipWhen (s.reg x == nn))

/-- R75. -/
def execSneImm (x : RegIdx) (nn : Byte) (s : State) : Host.Outcome State Fault Refusal :=
  .next (s.skipWhen (s.reg x != nn))

/-- R76. -/
def execSeReg (x y : RegIdx) (s : State) : Host.Outcome State Fault Refusal :=
  .next (s.skipWhen (s.reg x == s.reg y))

/-- R77. -/
def execSneReg (x y : RegIdx) (s : State) : Host.Outcome State Fault Refusal :=
  .next (s.skipWhen (s.reg x != s.reg y))

/-- R78: the full 16-bit sum, not reduced to 12 bits. -/
def execJpV0 (nnn : Addr12) (s : State) : Host.Outcome State Fault Refusal :=
  .next (s.setPc (wideReg s indexJumpReg + addrOperand nnn))

end Sys2Proof.Machine
end

