-- ==== Sys2Proof/Machine/Display.lean ====
section
/-! DEFINITION. The display-delegated instructions CLS and DRW (spec/44_display.md R105 to R109). -/

namespace Sys2Proof.Machine

/-- R105. -/
def execCls (s : State) : Host.Outcome State Fault Refusal :=
  .next (s.emit .clear).advance

/-- R106: the core reads the `n` rows at `I +16 k` and passes them on; `VF`, `I` and memory stay (R107). A row outside
the store refuses the whole step (R33, log 7). -/
def execDrw (x y : RegIdx) (n : Nibble) (s : State) : Host.Outcome State Fault Refusal :=
  match s.memReadAll (rowAddrs s.i (countOperand n)) with
  | .error r => .refused r
  | .ok rows => .next (s.emit (.draw (s.reg x) (s.reg y) rows)).advance

end Sys2Proof.Machine
end

