-- ==== Sys2Proof/Machine/Halt.lean ====
section
/-! DEFINITION. The halt word (spec/40_step_fetch_decode.md R62; spec/60_exceptions.md R111). -/

namespace Sys2Proof.Machine

/-- R62: the word 0x0000 raises HaltSignal with the `pc` it was fetched at. -/
def execHalt0 (s : State) : Host.Outcome State Fault Refusal :=
  raiseFatal (.haltSignal s.pc)

end Sys2Proof.Machine
end

