-- ==== Sys2Proof/Machine/IndexRandom.lean ====
section
/-! DEFINITION. The index register and the random number: LD_I, ADD_I, RND (spec/43_index_random.md R100 to R103). -/

namespace Sys2Proof.Machine

/-- R100. -/
def execLdI (nnn : Addr12) (s : State) : Host.Outcome State Fault Refusal :=
  .next (s.setI (addrOperand nnn)).advance

/-- R101: modulo 2^16, no flag. -/
def execAddI (x : RegIdx) (s : State) : Host.Outcome State Fault Refusal :=
  .next (s.setI (s.i + wideReg s x)).advance

/-- R102: exactly one draw, also when `nn` is 0. -/
def execRnd (x : RegIdx) (nn : Byte) (s : State) : Host.Outcome State Fault Refusal :=
  .next (s.drawRandom.setReg x (s.rand.byte &&& nn)).advance

end Sys2Proof.Machine
end

