-- ==== Sys2Proof/Machine/Fetch.lean ====
section
/-! DEFINITION. The instruction fetch (spec/40_step_fetch_decode.md R61; spec/20_memory.md R34), and the placing of a
word where the next fetch reads it. -/

namespace Sys2Proof.Machine

/-- The two addresses of the fetch, `pc` and `pc +16 1` (R34, R37). -/
def State.fetchAddrs (s : State) : List Word := [s.pc, s.pc + 1#16]

/-- The fetched word, big-endian (R34, R61); a byte outside the store refuses the step (R33). -/
def State.fetchWord (s : State) : Except Refusal Word :=
  match s.memRead s.pc with
  | .error r => .error r
  | .ok hi =>
    match s.memRead (s.pc + 1#16) with
    | .error r => .error r
    | .ok lo => .ok (joinBytes hi lo)

/-- The store grown, if need be, so that it has both addresses of the fetch. -/
def State.withFetchRoom (s : State) : State :=
  { s with cfg := { s.cfg with memSize := max s.cfg.memSize (max s.pc.toNat (s.pc + 1#16).toNat + 1) } }

/-- A word's bytes written at `pc` and `pc +16 1`, the high byte first. -/
def State.placeWord (s : State) (w : Word) : State :=
  { s.withFetchRoom with mem := (s.mem.write s.pc.toNat (highByte w)).write (s.pc + 1#16).toNat (lowByte w) }

end Sys2Proof.Machine
end

