-- ==== Sys2Proof/Machine/Step.lean ====
section
/-! DEFINITION. One step (spec/40_step_fetch_decode.md R60). -/

namespace Sys2Proof.Machine

/-- Fetch, halt test and decode, execute. The halt word is the first test of `decodeWord` and the instruction `halt0`
(R62); a word that matches no row raises UnknownOpcode (R64). -/
def step (s : State) : Host.Outcome State Fault Refusal :=
  match s.fetchWord with
  | .error r => .refused r
  | .ok w =>
    match decodeWord s.cfg.addINN w with
    | none => raiseFatal (.unknownOpcode w s.pc)
    | some i => exec i s

/-- The state with the instruction of a table word stored where `step` fetches next (log 18). Its two bytes are written
at `pc` and `pc +16 1`; the store is grown if it lacks one of those addresses; nothing else changes. -/
def State.withFetchWord (s : State) (nbits w : Nat) : State := s.placeWord (tableWord nbits w)

end Sys2Proof.Machine
end

