-- ==== Sys2Proof/Machine/Platform.lean ====
section
/-! DEFINITION. The core's boundary: what the driver and the ROM loader may do to it, and the signals a step drives
(spec/10_state.md R22; spec/60_exceptions.md R115, R116, R126; spec/70_reset_and_hazards.md R130, R133). The signal
names and the fault numbers are the spec's own restatement (92_eei_decisions D1, D14). -/

namespace Sys2Proof.Machine

/-- What the driver does to the core: the inputs `step` and `reset`, or anything else (R126). -/
inductive DriverAction where
  | step
  | reset
  | other
deriving DecidableEq, Repr

/-- One action of the driver. -/
def drive (a : DriverAction) (s : State) : Host.Outcome State Fault Refusal :=
  match a with
  | .step => step s
  | .reset => .next s.reinit
  | .other => .refused .driverAction

/-- The state the core holds after the driver asked for a step: the next state, or after a fatal condition the state
before it (R116, R121); none where the step has no meaning. -/
def afterStep (s : State) : Option State :=
  match step s with
  | .next s' => some s'
  | .fault _ => some s
  | .refused _ => none

/-- The ROM loader (R133): the image's bytes in load order from the origin 0x200, before the first step. -/
def loadImage (image : List Byte) (s : State) : Host.Outcome State Fault Refusal :=
  if imageFits s.cfg image then .next { s with mem := s.mem.writeAll 0x200 image } else .refused .imageTooLarge

/-- The row addresses a step reads beside its fetch: those of DRW (R109). -/
def dataAddrs (s : State) : Option Instr → List Word
  | some (.drw _ _ n) => rowAddrs s.i (countOperand n)
  | _ => []

/-- The addresses on `mem_addr` in one step (R30, R38): the two of the fetch, and where both are in the store those of
the sprite rows. -/
def stepReads (s : State) : List Word :=
  s.fetchAddrs ++
    match s.fetchWord with
    | .error _ => []
    | .ok w => dataAddrs s (decodeWord s.cfg.addINN w)

/-- `fault_kind` (R115). -/
def Fault.kind : Fault → BitVec 2
  | .haltSignal _ => 1#2
  | .unknownOpcode _ _ => 2#2
  | .stackOverflow _ _ => 3#2

/-- `fault_word` (R115). -/
def Fault.word : Fault → Word
  | .haltSignal _ => 0x0000#16
  | .unknownOpcode w _ => w
  | .stackOverflow w _ => w

/-- `fault_pc` (R115). -/
def Fault.faultPc : Fault → Word
  | .haltSignal p => p
  | .unknownOpcode _ p => p
  | .stackOverflow _ p => p

/-- The output signals of a step (R22). `event` is the strobe and payload of `disp_clear` and `disp_draw`;
`faultContext` is `fault_word` and `fault_pc`, absent where R115 calls them "not meaningful". -/
structure StepSignals where
  event : Option DisplayEvent
  faultKind : BitVec 2
  faultContext : Option (Word × Word)
deriving DecidableEq, Repr

/-- The event by which a later trace is longer than an earlier one. -/
def newEvent (before after : List DisplayEvent) : Option DisplayEvent := (after.drop before.length).head?

/-- The signals a step drives; none where the step has no meaning. -/
def stepSignals (s : State) : Option StepSignals :=
  match step s with
  | .next s' => some { event := newEvent s.events s'.events, faultKind := 0#2, faultContext := none }
  | .fault f => some { event := none, faultKind := f.kind, faultContext := some (f.word, f.faultPc) }
  | .refused _ => none

end Sys2Proof.Machine
end

