-- ==== Sys2Proof/Safety.lean ====
section
/-! DEFINITION. The terms the statements use: the invariant of the machine, what a step leaves unchanged, what an
instruction may write, runs, and the unrecognised words. -/

namespace Sys2Proof.Machine

/-- A finite stack is never deeper than `STACK_DEPTH` (spec/10_state.md R20). -/
def State.stackFits (s : State) : Prop := ∀ depth, s.cfg.stackDepth = some depth → s.stack.length ≤ depth

/-- What every reachable state satisfies: legal parameters (R4, R33), memory in canonical form with every entry inside
the store, and a stack that fits. -/
structure State.Inv (s : State) : Prop where
  params : s.cfg.wellFormed = true
  canonical : s.mem.wf
  entriesInStore : ∀ c ∈ s.mem, c.1 < s.cfg.memSize
  stackFits : s.stackFits

/-- The parts of the state other than registers, `pc`, memory and parameters that some instruction writes. -/
inductive Part where
  | index
  | stack
  | random
  | display
deriving DecidableEq, Repr

/-- Nothing but `pc`, the registers `regs` and the parts `parts` differs between two states. Every byte of memory reads
the same, and the parameters are the same. -/
structure FrameBut (regs : List RegIdx) (parts : List Part) (s t : State) : Prop where
  registers : ∀ r, r ∉ regs → t.reg r = s.reg r
  index : Part.index ∉ parts → t.i = s.i
  stack : Part.stack ∉ parts → t.stack = s.stack
  random : Part.random ∉ parts → t.rand = s.rand
  display : Part.display ∉ parts → t.events = s.events
  memory : ∀ a, t.mem.read a = s.mem.read a
  parameters : t.cfg = s.cfg

/-- The registers an instruction writes: the table of spec/10_state.md R12. -/
def registersWritten : Instr → List RegIdx
  | .ldImm x _ | .addImm x _ | .rnd x _ => [x]
  | .ldReg x _ | .or x _ | .and x _ | .xor x _ => [x]
  | .addReg x _ | .sub x _ | .subn x _ => [x, flagReg]
  | .shr x _ | .shl x _ => [x, flagReg]
  | .cls _ | .ret _ | .jp _ | .call _ | .seImm _ _ | .sneImm _ _ | .seReg _ _ _ | .sneReg _ _ _ | .ldI _ | .jpV0 _
  | .drw _ _ _ | .addI _ | .halt0 => []

/-- The other parts an instruction writes: R18 (`I`), R19 (the stack), R103 (the random source), R108 (the display). -/
def partsWritten : Instr → List Part
  | .ldI _ | .addI _ => [.index]
  | .ret _ | .call _ => [.stack]
  | .rnd _ _ => [.random]
  | .cls _ | .drw _ _ _ => [.display]
  | .jp _ | .seImm _ _ | .sneImm _ _ | .seReg _ _ _ | .sneReg _ _ _ | .ldImm _ _ | .addImm _ _ | .ldReg _ _ | .or _ _
  | .and _ _ | .xor _ _ | .addReg _ _ | .sub _ _ | .shr _ _ | .subn _ _ | .shl _ _ | .jpV0 _ | .halt0 => []

/-- The value of `pc` an instruction may leave: the table of the five updates (spec/10_state.md R14). -/
def PcUpdate (s : State) (after : Word) : Instr → Prop
  | .jp nnn | .call nnn => after.toNat = nnn.toNat
  | .jpV0 nnn => after.toNat = (s.reg 0x0#4).toNat + nnn.toNat
  | .ret _ => after = s.stack.headD s.pc
  | .seImm x nn => after = if s.reg x = nn then s.pc + 4#16 else s.pc + 2#16
  | .sneImm x nn => after = if s.reg x = nn then s.pc + 2#16 else s.pc + 4#16
  | .seReg x y _ => after = if s.reg x = s.reg y then s.pc + 4#16 else s.pc + 2#16
  | .sneReg x y _ => after = if s.reg x = s.reg y then s.pc + 2#16 else s.pc + 4#16
  | .cls _ | .ldImm _ _ | .addImm _ _ | .ldReg _ _ | .or _ _ | .and _ _ | .xor _ _ | .addReg _ _ | .sub _ _ | .shr _ _
  | .subn _ _ | .shl _ _ | .ldI _ | .rnd _ _ | .drw _ _ _ | .addI _ => after = s.pc + 2#16
  | .halt0 => False

/-- The bytes at `pc` and `pc +16 1` are in the store and are the word `w` (spec/20_memory.md R34). -/
def State.Fetches (s : State) (w : Word) : Prop :=
  s.pc.toNat < s.cfg.memSize ∧ (s.pc + 1#16).toNat < s.cfg.memSize ∧
    w = joinBytes (s.mem.read s.pc.toNat) (s.mem.read (s.pc + 1#16).toNat)

/-- The word at `pc` decodes to the instruction `i`. -/
def State.AtInstr (s : State) (i : Instr) : Prop := ∃ w, s.Fetches w ∧ decodeWord s.cfg.addINN w = some i

/-- The unrecognised words, space by space (spec/30_encoding.md R52), for the parameter `ADD_I_NN` (R57). -/
def Unrecognised (addINN : Byte) (w : Word) : Prop :=
  (fieldClass w = 0x0#4 ∧ fieldNN w ≠ 0xE0#8 ∧ fieldNN w ≠ 0xEE#8 ∧ w ≠ 0x0000#16) ∨
  (fieldClass w = 0x8#4 ∧ fieldN w ∈ [0x8#4, 0x9#4, 0xA#4, 0xB#4, 0xC#4, 0xD#4, 0xF#4]) ∨
  fieldClass w = 0xE#4 ∨
  (fieldClass w = 0xF#4 ∧ fieldNN w ≠ addINN)

/-- Every word with `(w & mask) == match` decodes to the instruction `f w`, whatever `ADD_I_NN` is (R50). -/
def Encoded (mask value : Word) (f : Word → Instr) : Prop :=
  ∀ (addINN : Byte) (w : Word), w &&& mask = value → decodeWord addINN w = some (f w)

/-- `k` successful steps from `s` to `t`, all of whose states, the first and the last among them, satisfy `P`. -/
inductive Run (P : State → Prop) : Nat → State → State → Prop where
  | done {s : State} : P s → Run P 0 s s
  | more {k : Nat} {s s' t : State} : P s → step s = .next s' → Run P k s' t → Run P (k + 1) s t

/-- The last `d` entries of a stack whose top is its head: the `d` oldest ones. -/
def bottomEntries (d : Nat) (stack : List Word) : List Word := stack.drop (stack.length - d)

/-- The state over another memory. -/
def State.withMem (s : State) (m : Memory) : State := { s with mem := m }

/-- An outcome over another memory: only a next state holds one. -/
def outcomeWithMem (m : Memory) : Host.Outcome State Fault Refusal → Host.Outcome State Fault Refusal
  | .next s => .next (s.withMem m)
  | .fault f => .fault f
  | .refused r => .refused r

end Sys2Proof.Machine
end

