-- ==== Sys2Proof/Certificates/Slice0/Obligations.lean ====
section
/-! DEFINITION. The statements of this package. Each docstring names the rule of spec/ it formalises, or says which
clause is the model's choice and where it is logged. -/

open Sys2Proof Sys2Proof.Machine

/-! ## Reset and the invariant -/

/-- R24, R131: initialisation zeroes the registers and `I`, sets `pc` to the origin and empties the stack; on a running
machine it does so too, and reaches neither memory nor the random source nor the display. -/
def Obligations.InitialisationZeroesTheCoreOnly : Prop :=
  ((∀ r, State.reset.reg r = 0x00#8) ∧ State.reset.i = 0x0000#16 ∧ State.reset.pc = 0x0200#16 ∧ State.reset.stack = []) ∧
  ∀ s : State, (∀ r, s.reinit.reg r = 0x00#8) ∧ s.reinit.i = 0x0000#16 ∧ s.reinit.pc = 0x0200#16 ∧
    s.reinit.stack = [] ∧ (∀ a, s.reinit.mem.read a = s.mem.read a) ∧ s.reinit.rand = s.rand ∧
    s.reinit.events = s.events ∧ s.reinit.cfg = s.cfg

/-- The invariant holds at reset. The memory, parameters and source of `State.reset` are the model's choices (logs 1, 2,
3, 5, 8). -/
def Obligations.ResetMeetsInvariant : Prop := State.reset.Inv

/-- Every step keeps the invariant: legal parameters, canonical memory inside the store, a stack within
`STACK_DEPTH` (R20, R32, R33). The canonical form is the model's (log 6). -/
def Obligations.StepKeepsInvariant : Prop := ∀ s t : State, s.Inv → step s = .next t → t.Inv

/-! ## Fetch, decode and dispatch -/

/-- R34: the word is the byte at `pc` as the high byte and the byte at `pc +16 1` as the low byte. -/
def Obligations.FetchIsBigEndian : Prop :=
  ∀ s : State, s.pc.toNat < s.cfg.memSize → (s.pc + 1#16).toNat < s.cfg.memSize →
    ∃ w : Word, s.fetchWord = .ok w ∧
      w.toNat = 256 * (s.mem.read s.pc.toNat).toNat + (s.mem.read (s.pc + 1#16).toNat).toNat

/-- R60, R61, R67: when the two bytes at `pc` decode to an instruction, the step is the execution of that instruction at
the same state; nothing is added to `pc` before or after. -/
def Obligations.StepExecutesTheDecodedInstruction : Prop :=
  ∀ (s : State) (i : Instr), s.pc.toNat < s.cfg.memSize → (s.pc + 1#16).toNat < s.cfg.memSize →
    decodeBytes s.cfg.addINN [s.mem.read s.pc.toNat, s.mem.read (s.pc + 1#16).toNat] = .ok (i, []) →
    step s = exec i s

/-- R62: only the word 0x0000 is the halt word, wherever `pc` meets it; the step then ends with HaltSignal and the `pc`
it fetched at, and no other word ends so. -/
def Obligations.HaltWordRaisesHaltSignal : Prop :=
  (∀ (addINN : Byte) (w : Word), decodeWord addINN w = some .halt0 ↔ w = 0x0000#16) ∧
  (∀ s : State, exec .halt0 s = .fault (.haltSignal s.pc)) ∧
  ∀ (s : State) (w : Word) (p : Word), s.Fetches w → (step s = .fault (.haltSignal p) ↔ w = 0x0000#16 ∧ p = s.pc)

/-- R52, R57: the decoder rejects exactly the unrecognised words. That class 0xF has a selector is the spec's own
decision (92_eei_decisions D10, log 4). -/
def Obligations.DecoderRejectsExactlyTheUnrecognisedWords : Prop :=
  ∀ (addINN : Byte) (w : Word), decodeWord addINN w = none ↔ Unrecognised addINN w

/-- R112, R117: an unrecognised word ends the step with UnknownOpcode, the word and `pc`, and nothing else does. Which
words of class 0xF are unrecognised is the spec's own decision (D10, log 4). -/
def Obligations.UnrecognisedWordRaisesUnknownOpcode : Prop :=
  ∀ (s : State) (w v p : Word), s.Fetches w →
    (step s = .fault (.unknownOpcode v p) ↔ Unrecognised s.cfg.addINN w ∧ v = w ∧ p = s.pc)

/-- R46, R63: the six fields of the word as numbers, how they overlap, and what they are of the fetched bytes. -/
def Obligations.FieldsAreContiguousBitExtractions : Prop :=
  (∀ hi lo : Byte, (fieldClass (joinBytes hi lo)).toNat = hi.toNat / 16 ∧
    (fieldX (joinBytes hi lo)).toNat = hi.toNat % 16 ∧ (fieldY (joinBytes hi lo)).toNat = lo.toNat / 16 ∧
    (fieldN (joinBytes hi lo)).toNat = lo.toNat % 16 ∧ fieldNN (joinBytes hi lo) = lo ∧
    (fieldNNN (joinBytes hi lo)).toNat = 256 * (hi.toNat % 16) + lo.toNat) ∧
  ∀ w : Word, (fieldClass w).toNat = w.toNat / 4096 ∧ (fieldX w).toNat = w.toNat / 256 % 16 ∧
    (fieldY w).toNat = w.toNat / 16 % 16 ∧ (fieldN w).toNat = w.toNat % 16 ∧
    (fieldNN w).toNat = w.toNat % 256 ∧ (fieldNNN w).toNat = w.toNat % 4096 ∧
    (fieldNN w).toNat = 16 * (fieldY w).toNat + (fieldN w).toNat ∧
    (fieldNNN w).toNat = 256 * (fieldX w).toNat + (fieldNN w).toNat

/-- Words written out from the layouts of R50 and R55 decode to their instructions (a sanity statement). Four clauses rest
on the spec's decision D9 that a don't-care nibble is ignored (log 13): 0x01E0, 0x07EE, 0x512F, 0x83F6. Two rest on
`ADD_I_NN` = 0x1E, PRESUMED from the family, and on D10 (GK1, log 4): 0xF51E is ADD_I and 0xF007 is no instruction. That
0x0000 has a constructor, though R51 calls it no instruction, is the model's (log 11). -/
def Obligations.SpecWordsDecodeAsWritten : Prop :=
  decodeWord 0x1E#8 0x01E0#16 = some (.cls 0x1#4) ∧ decodeWord 0x1E#8 0x07EE#16 = some (.ret 0x7#4) ∧
  decodeWord 0x1E#8 0x1ABC#16 = some (.jp 0xABC#12) ∧ decodeWord 0x1E#8 0x512F#16 = some (.seReg 1 2 0xF#4) ∧
  decodeWord 0x1E#8 0x8AB4#16 = some (.addReg 0xA#4 0xB#4) ∧ decodeWord 0x1E#8 0x83F6#16 = some (.shr 3 0xF#4) ∧
  decodeWord 0x1E#8 0xC30F#16 = some (.rnd 3 0x0F#8) ∧ decodeWord 0x1E#8 0xD123#16 = some (.drw 1 2 3) ∧
  decodeWord 0x1E#8 0xF51E#16 = some (.addI 5) ∧ decodeWord 0x1E#8 0x0000#16 = some .halt0 ∧
  decodeWord 0x1E#8 0x0123#16 = none ∧ decodeWord 0x1E#8 0x8128#16 = none ∧ decodeWord 0x1E#8 0xE09E#16 = none ∧
  decodeWord 0x1E#8 0xF007#16 = none

/-- Decode of encode is the identity, for every instruction, every operand and every value of `ADD_I_NN`. -/
def Obligations.DecodeOfEncodeIsTheInstruction : Prop :=
  ∀ (addINN : Byte) (i : Instr), decodeWord addINN (encode addINN i) = some i ∧
    ∀ rest, decodeBytes addINN (encodeBytes addINN i ++ rest) = .ok (i, rest)

/-- Encode of decode is the identity: no bit of a word is lost, don't-care nibbles included, and one instruction has one
word. -/
def Obligations.EncodeOfDecodeIsTheWord : Prop :=
  ∀ (addINN : Byte) (w : Word) (i : Instr), decodeWord addINN w = some i → encode addINN i = w

/-- R50, R64: the decision tree and the opcode map of masks and matches are the same decoder. A word selects a row of the
map exactly when it decodes to an instruction of that row, so every word has at most one row. The row of ADD_I takes the
parameter `ADD_I_NN` (log 4). -/
def Obligations.DecoderAgreesWithTheOpcodeMap : Prop :=
  ∀ (addINN : Byte) (w : Word) (r : OpcodeRow),
    (r ∈ opcodeMap addINN ∧ r.selects w = true) ↔ ∃ i, decodeWord addINN w = some i ∧ opcodeRow addINN i = r

/-- R50: "no two rows overlap". -/
def Obligations.OpcodeMapRowsDoNotOverlap : Prop :=
  ∀ (addINN : Byte) (w : Word) (r q : OpcodeRow), r ∈ opcodeMap addINN → q ∈ opcodeMap addINN →
    r.selects w = true → q.selects w = true → r = q

/-- R49: bits that are neither operand nor selector of the matched row take part neither in selecting the instruction
nor in its effect. That they are ignored is the spec's own decision (92_eei_decisions D9, log 13). -/
def Obligations.DontCareBitsHaveNoEffect : Prop :=
  ∀ (addINN : Byte) (w w' : Word) (i : Instr), decodeWord addINN w = some i →
    w &&& ((opcodeRow addINN i).mask ||| (opcodeRow addINN i).operands) =
      w' &&& ((opcodeRow addINN i).mask ||| (opcodeRow addINN i).operands) →
    ∃ i', decodeWord addINN w' = some i' ∧ opcodeRow addINN i' = opcodeRow addINN i ∧
      ∀ s : State, exec i' s = exec i s

/-! ## Control transfer -/

/-- R71, R113, a non-empty stack: RET takes the top entry as `pc`, as it is, and leaves the stack one entry less deep. -/
def Obligations.ReturnPopsTheTopEntryIntoPc : Prop :=
  Encoded 0xF0FF#16 0x00EE#16 (fun w => .ret (fieldX w)) ∧
  ∀ (dc : Nibble) (s : State) (top : Word) (rest : List Word), s.stack = top :: rest →
    ∃ t, exec (.ret dc) s = .next t ∧ t.pc = top ∧ t.stack = rest ∧ FrameBut [] [.stack] s t

/-- R71, R113, an empty stack: RET succeeds and changes nothing at all. Keeping the document's leniency is the spec's
decision D12 (log 21). -/
def Obligations.ReturnOnEmptyStackChangesNothing : Prop :=
  ∀ (dc : Nibble) (s : State), s.stack = [] → exec (.ret dc) s = .next s

/-- R72. -/
def Obligations.JumpSetsPcToTheAddress : Prop :=
  Encoded 0xF000#16 0x1000#16 (fun w => .jp (fieldNNN w)) ∧
  ∀ (nnn : Addr12) (s : State), ∃ t, exec (.jp nnn) s = .next t ∧ t.pc.toNat = nnn.toNat ∧ FrameBut [] [] s t

/-- R73: CALL pushes `pc +16 2` and jumps; with a finite stack that is full it raises StackOverflow, which is the spec's
own decision D11 (log 3). -/
def Obligations.CallPushesTheReturnAddressOrOverflows : Prop :=
  Encoded 0xF000#16 0x2000#16 (fun w => .call (fieldNNN w)) ∧
  (∀ (nnn : Addr12) (s : State), s.cfg.stackDepth ≠ some s.stack.length →
    ∃ t, exec (.call nnn) s = .next t ∧ t.stack = (s.pc + 2#16) :: s.stack ∧ t.pc.toNat = nnn.toNat ∧
      FrameBut [] [.stack] s t) ∧
  ∀ (nnn : Addr12) (s : State), s.cfg.stackDepth = some s.stack.length →
    ∃ w : Word, w.toNat = 0x2000 + nnn.toNat ∧ exec (.call nnn) s = .fault (.stackOverflow w s.pc)

/-- R74, R75, R76, R77: each skip advances `pc` by 4 when its comparison holds and by 2 otherwise, and changes nothing
else. -/
def Obligations.SkipsAdvanceByFourOrTwo : Prop :=
  (Encoded 0xF000#16 0x3000#16 (fun w => .seImm (fieldX w) (fieldNN w)) ∧
    Encoded 0xF000#16 0x4000#16 (fun w => .sneImm (fieldX w) (fieldNN w)) ∧
    Encoded 0xF000#16 0x5000#16 (fun w => .seReg (fieldX w) (fieldY w) (fieldN w)) ∧
    Encoded 0xF000#16 0x9000#16 (fun w => .sneReg (fieldX w) (fieldY w) (fieldN w))) ∧
  (∀ (x : RegIdx) (nn : Byte) (s : State),
    (∃ t, exec (.seImm x nn) s = .next t ∧ FrameBut [] [] s t ∧
      t.pc = if (s.reg x).toNat = nn.toNat then s.pc + 4#16 else s.pc + 2#16) ∧
    ∃ t, exec (.sneImm x nn) s = .next t ∧ FrameBut [] [] s t ∧
      t.pc = if (s.reg x).toNat ≠ nn.toNat then s.pc + 4#16 else s.pc + 2#16) ∧
  ∀ (x y : RegIdx) (dc : Nibble) (s : State),
    (∃ t, exec (.seReg x y dc) s = .next t ∧ FrameBut [] [] s t ∧
      t.pc = if (s.reg x).toNat = (s.reg y).toNat then s.pc + 4#16 else s.pc + 2#16) ∧
    ∃ t, exec (.sneReg x y dc) s = .next t ∧ FrameBut [] [] s t ∧
      t.pc = if (s.reg x).toNat ≠ (s.reg y).toNat then s.pc + 4#16 else s.pc + 2#16

/-- R78: the full sum of `V[0]` and the address. That it is not reduced to 12 bits is the spec's own decision D25
(log 14). -/
def Obligations.IndexedJumpAddsRegisterZero : Prop :=
  Encoded 0xF000#16 0xB000#16 (fun w => .jpV0 (fieldNNN w)) ∧
  ∀ (nnn : Addr12) (s : State), ∃ t, exec (.jpV0 nnn) s = .next t ∧
    t.pc.toNat = (s.reg 0x0#4).toNat + nnn.toNat ∧ t.pc.toNat ≤ 0x10FE ∧ FrameBut [] [] s t

/-! ## Loads and the arithmetic-logic unit -/

/-- R81. -/
def Obligations.LoadImmediateWritesTheRegister : Prop :=
  Encoded 0xF000#16 0x6000#16 (fun w => .ldImm (fieldX w) (fieldNN w)) ∧
  ∀ (x : RegIdx) (nn : Byte) (s : State), ∃ t, exec (.ldImm x nn) s = .next t ∧ t.reg x = nn ∧
    t.pc = s.pc + 2#16 ∧ FrameBut [x] [] s t

/-- R82: the sum modulo 256; no flag. -/
def Obligations.AddImmediateWrapsAndWritesNoFlag : Prop :=
  Encoded 0xF000#16 0x7000#16 (fun w => .addImm (fieldX w) (fieldNN w)) ∧
  ∀ (x : RegIdx) (nn : Byte) (s : State), ∃ t, exec (.addImm x nn) s = .next t ∧
    (t.reg x).toNat = ((s.reg x).toNat + nn.toNat) % 256 ∧ t.pc = s.pc + 2#16 ∧ FrameBut [x] [] s t

/-- R83. -/
def Obligations.LoadRegisterCopies : Prop :=
  Encoded 0xF00F#16 0x8000#16 (fun w => .ldReg (fieldX w) (fieldY w)) ∧
  ∀ (x y : RegIdx) (s : State), ∃ t, exec (.ldReg x y) s = .next t ∧ t.reg x = s.reg y ∧
    t.pc = s.pc + 2#16 ∧ FrameBut [x] [] s t

/-- R84, R85, R86: bit by bit; no flag. -/
def Obligations.LogicIsBitwiseAndWritesNoFlag : Prop :=
  (Encoded 0xF00F#16 0x8001#16 (fun w => .or (fieldX w) (fieldY w)) ∧
    Encoded 0xF00F#16 0x8002#16 (fun w => .and (fieldX w) (fieldY w)) ∧
    Encoded 0xF00F#16 0x8003#16 (fun w => .xor (fieldX w) (fieldY w))) ∧
  ∀ (x y : RegIdx) (s : State),
    (∃ t, exec (.or x y) s = .next t ∧ t.pc = s.pc + 2#16 ∧ FrameBut [x] [] s t ∧
      ∀ k < 8, (t.reg x).getLsbD k = ((s.reg x).getLsbD k || (s.reg y).getLsbD k)) ∧
    (∃ t, exec (.and x y) s = .next t ∧ t.pc = s.pc + 2#16 ∧ FrameBut [x] [] s t ∧
      ∀ k < 8, (t.reg x).getLsbD k = ((s.reg x).getLsbD k && (s.reg y).getLsbD k)) ∧
    ∃ t, exec (.xor x y) s = .next t ∧ t.pc = s.pc + 2#16 ∧ FrameBut [x] [] s t ∧
      ∀ k < 8, (t.reg x).getLsbD k = ((s.reg x).getLsbD k != (s.reg y).getLsbD k)

/-- R87: `VF` is 1 exactly when the true sum exceeds 255, else 0, also when `VF` is the destination; any other
destination takes the sum modulo 256. -/
def Obligations.AddRegistersWritesSumThenCarry : Prop :=
  Encoded 0xF00F#16 0x8004#16 (fun w => .addReg (fieldX w) (fieldY w)) ∧
  ∀ (x y : RegIdx) (s : State), ∃ t, exec (.addReg x y) s = .next t ∧
    (x ≠ 0xF#4 → (t.reg x).toNat = ((s.reg x).toNat + (s.reg y).toNat) % 256) ∧
    (t.reg 0xF#4).toNat = (if (s.reg x).toNat + (s.reg y).toNat > 255 then 1 else 0) ∧
    t.pc = s.pc + 2#16 ∧ FrameBut [x, 0xF#4] [] s t

/-- R88, R90 with the unsigned borrow rule of 90_conflicts C1, the spec's decision D6 (log 15): `VF` is 0 exactly when the
subtraction borrows, else 1; any other destination takes the difference modulo 256. -/
def Obligations.SubtractionsWriteDifferenceThenNotBorrow : Prop :=
  (Encoded 0xF00F#16 0x8005#16 (fun w => .sub (fieldX w) (fieldY w)) ∧
    Encoded 0xF00F#16 0x8007#16 (fun w => .subn (fieldX w) (fieldY w))) ∧
  ∀ (x y : RegIdx) (s : State),
    (∃ t, exec (.sub x y) s = .next t ∧
      (x ≠ 0xF#4 → (t.reg x).toNat = ((s.reg x).toNat + 256 - (s.reg y).toNat) % 256) ∧
      (t.reg 0xF#4).toNat = (if (s.reg x).toNat < (s.reg y).toNat then 0 else 1) ∧
      t.pc = s.pc + 2#16 ∧ FrameBut [x, 0xF#4] [] s t) ∧
    ∃ t, exec (.subn x y) s = .next t ∧
      (x ≠ 0xF#4 → (t.reg x).toNat = ((s.reg y).toNat + 256 - (s.reg x).toNat) % 256) ∧
      (t.reg 0xF#4).toNat = (if (s.reg y).toNat < (s.reg x).toNat then 0 else 1) ∧
      t.pc = s.pc + 2#16 ∧ FrameBut [x, 0xF#4] [] s t

/-- R89: half the value, and `VF` its remainder. That `VF` as destination ends with the flag is the choice of 90_conflicts
C2, the spec's decision D8 (log 17). -/
def Obligations.ShiftRightHalvesAndKeepsTheLowBit : Prop :=
  Encoded 0xF00F#16 0x8006#16 (fun w => .shr (fieldX w) (fieldY w)) ∧
  ∀ (x : RegIdx) (dc : Nibble) (s : State), ∃ t, exec (.shr x dc) s = .next t ∧
    (x ≠ 0xF#4 → (t.reg x).toNat = (s.reg x).toNat / 2) ∧
    (t.reg 0xF#4).toNat = (s.reg x).toNat % 2 ∧ t.pc = s.pc + 2#16 ∧ FrameBut [x, 0xF#4] [] s t

/-- R91: twice the value modulo 256, and `VF` 0x80 or 0x00. That the flag is not normalised to 1 is the spec's decision
D7 (log 16). That `VF` as destination ends with the flag is the choice of 90_conflicts C2, the spec's decision D8, marked
at R80 (log 17). -/
def Obligations.ShiftLeftDoublesAndKeepsTheHighBit : Prop :=
  Encoded 0xF00F#16 0x800E#16 (fun w => .shl (fieldX w) (fieldY w)) ∧
  ∀ (x : RegIdx) (dc : Nibble) (s : State), ∃ t, exec (.shl x dc) s = .next t ∧
    (x ≠ 0xF#4 → (t.reg x).toNat = 2 * (s.reg x).toNat % 256) ∧
    (t.reg 0xF#4).toNat = (if (s.reg x).toNat ≥ 128 then 128 else 0) ∧
    t.pc = s.pc + 2#16 ∧ FrameBut [x, 0xF#4] [] s t

/-! ## Index register and random number -/

/-- R100. -/
def Obligations.LoadIndexWritesTheAddress : Prop :=
  Encoded 0xF000#16 0xA000#16 (fun w => .ldI (fieldNNN w)) ∧
  ∀ (nnn : Addr12) (s : State), ∃ t, exec (.ldI nnn) s = .next t ∧ t.i.toNat = nnn.toNat ∧
    t.pc = s.pc + 2#16 ∧ FrameBut [] [.index] s t

/-- R101: the sum modulo 65536, no flag; in class 0xF the low byte `ADD_I_NN` selects it and no other low byte is an
instruction. The parameter is from outside the document (D10, log 4). -/
def Obligations.AddToIndexWrapsAndWritesNoFlag : Prop :=
  (∀ (addINN : Byte) (w : Word), fieldClass w = 0xF#4 →
    decodeWord addINN w = if fieldNN w = addINN then some (.addI (fieldX w)) else none) ∧
  ∀ (x : RegIdx) (s : State), ∃ t, exec (.addI x) s = .next t ∧
    t.i.toNat = (s.i.toNat + (s.reg x).toNat) % 65536 ∧ t.pc = s.pc + 2#16 ∧ FrameBut [] [.index] s t

/-- R102: one draw, and the register takes the drawn byte masked with `nn`, for every byte `r` the source may supply;
the result has no bit `nn` lacks, whatever the draw is. The core holds no generator state (R103): the bytes supplied and
the count of draws are the model's own fields, and that a draw takes the next supplied byte and counts one is the model's
choice (log 8). -/
def Obligations.RandomIsTheDrawnByteMasked : Prop :=
  Encoded 0xF000#16 0xC000#16 (fun w => .rnd (fieldX w) (fieldNN w)) ∧
  ∀ (x : RegIdx) (nn : Byte) (s : State), ∃ t, exec (.rnd x nn) s = .next t ∧
    t.reg x = s.rand.byte &&& nn ∧ t.reg x &&& ~~~nn = 0x00#8 ∧ (t.reg x).toNat ≤ nn.toNat ∧
    (∀ (r : Byte) (later : List Byte), s.rand.supplied = r :: later →
      t.reg x = r &&& nn ∧ t.rand.supplied = later) ∧
    t.rand.drawn = s.rand.drawn + 1 ∧ t.pc = s.pc + 2#16 ∧ FrameBut [x] [.random] s t

/-! ## Display -/

/-- R105. -/
def Obligations.ClearEmitsOneClearEvent : Prop :=
  Encoded 0xF0FF#16 0x00E0#16 (fun w => .cls (fieldX w)) ∧
  ∀ (dc : Nibble) (s : State), ∃ t, exec (.cls dc) s = .next t ∧ t.events = s.events ++ [.clear] ∧
    t.pc = s.pc + 2#16 ∧ FrameBut [] [.display] s t

/-- R106, R107: with every row in the store, DRW emits one Draw event with the two coordinates and the `n` bytes at
`I +16 k`; no register, `VF` among them, and not `I` changes. That the core reads the rows is the spec's decision D15,
the wrap D3 (logs 9, 14). -/
def Obligations.DrawEmitsTheSpriteRows : Prop :=
  Encoded 0xF000#16 0xD000#16 (fun w => .drw (fieldX w) (fieldY w) (fieldN w)) ∧
  ∀ (x y : RegIdx) (n : Nibble) (s : State),
    (∀ k < n.toNat, (s.i.toNat + k) % 65536 < s.cfg.memSize) →
    ∃ t rows, exec (.drw x y n) s = .next t ∧ t.events = s.events ++ [.draw (s.reg x) (s.reg y) rows] ∧
      rows.length = n.toNat ∧ (∀ k < n.toNat, rows[k]? = some (s.mem.read ((s.i.toNat + k) % 65536))) ∧
      t.pc = s.pc + 2#16 ∧ FrameBut [] [.display] s t

/-- R33, R106 (c): a row outside the store refuses the step; no value is read and nothing is emitted. The refusal is the
spec's decision D4 (log 7). -/
def Obligations.DrawOutsideTheStoreIsRefused : Prop :=
  ∀ (x y : RegIdx) (n : Nibble) (s : State) (k : Nat), k < n.toNat →
    s.cfg.memSize ≤ (s.i.toNat + k) % 65536 →
    ∃ a : Word, exec (.drw x y n) s = .refused (.outsideStore a) ∧ s.cfg.memSize ≤ a.toNat

/-! ## Whole-machine rules -/

/-- R32 with the resolution of 90_conflicts C4: the core never writes memory. The document's sentence goes on "except
indirectly through the (unspecified/delegated) draw operation". That memory stays over a DRW step too, no display writing
the store, is the model's choice (the spec's decision D19, log 6). -/
def Obligations.StepNeverWritesMemory : Prop :=
  ∀ s t : State, step s = .next t → t.mem = s.mem ∧ ∀ a, t.mem.read a = s.mem.read a

/-- R12, R18, R19, R93, R103, R108: a step changes no register and no other part of the state but those the tables give
to the instruction at `pc`. That DRW is not among the writers of `VF` is 90_conflicts C5 (D15, log 21). -/
def Obligations.StepChangesOnlyWhatItsInstructionWrites : Prop :=
  ∀ s t : State, step s = .next t → ∃ i, s.AtInstr i ∧ FrameBut (registersWritten i) (partsWritten i) s t

/-- R14, R67: a successful step leaves `pc` at the value of its instruction's one of the five updates. The wrap, the full
indexed sum and the empty return are the spec's own decisions D2, D25 and D12 (logs 14, 21). -/
def Obligations.StepSetsPcByOneOfFiveUpdates : Prop :=
  ∀ s t : State, step s = .next t → ∃ i, s.AtInstr i ∧ PcUpdate s t.pc i

/-- R11, R17, R93: if a step changes `VF`, the instruction is one of the five that write a flag, or names `VF` as its
destination `x`; DRW does not change it (90_conflicts C5, D15, log 21). -/
def Obligations.OnlyFlagWritersAndNamedWritesChangeVF : Prop :=
  ∀ s t : State, step s = .next t → t.reg 0xF#4 ≠ s.reg 0xF#4 →
    ∃ i, s.AtInstr i ∧
      ((∃ x y, i = .addReg x y ∨ i = .sub x y ∨ i = .subn x y ∨ i = .shr x y ∨ i = .shl x y) ∨
       (∃ nn, i = .ldImm 0xF#4 nn ∨ i = .addImm 0xF#4 nn ∨ i = .rnd 0xF#4 nn) ∨
       ∃ y, i = .ldReg 0xF#4 y ∨ i = .or 0xF#4 y ∨ i = .and 0xF#4 y ∨ i = .xor 0xF#4 y)

/-- R17, R139: the byte left in `VF` by a flag-writing instruction is 0 or 1, except by SHL, which leaves 0x00 or 0x80
(D7, log 16). -/
def Obligations.FlagValuesAreZeroOneOrEighty : Prop :=
  ∀ (x y : RegIdx) (dc : Nibble) (s t : State),
    ((exec (.addReg x y) s = .next t ∨ exec (.sub x y) s = .next t ∨ exec (.subn x y) s = .next t ∨
      exec (.shr x dc) s = .next t) → t.reg 0xF#4 = 0x00#8 ∨ t.reg 0xF#4 = 0x01#8) ∧
    (exec (.shl x dc) s = .next t → t.reg 0xF#4 = 0x00#8 ∨ t.reg 0xF#4 = 0x80#8)

/-- R19: the stack changes only by the push of a CALL and the pop of a RET. -/
def Obligations.StackChangesOnlyByCallAndReturn : Prop :=
  ∀ s t : State, step s = .next t →
    t.stack = s.stack ∨
    (∃ nnn, s.AtInstr (.call nnn) ∧ t.stack = (s.pc + 2#16) :: s.stack) ∨
    (∃ dc, s.AtInstr (.ret dc) ∧ s.stack = t.pc :: t.stack)

/-- R65, R108: a step emits at most one display event, Clear from CLS or Draw from DRW with its `n` rows. -/
def Obligations.StepEmitsAtMostOneEvent : Prop :=
  ∀ s t : State, step s = .next t →
    t.events = s.events ∨
    (∃ dc, s.AtInstr (.cls dc) ∧ t.events = s.events ++ [.clear]) ∨
    (∃ x y n rows, s.AtInstr (.drw x y n) ∧ rows.length = n.toNat ∧
      t.events = s.events ++ [.draw (s.reg x) (s.reg y) rows])

/-- R65, R110, R117: with a full store every step ends in exactly the way its word says: HaltSignal, UnknownOpcode,
StackOverflow for a CALL on a full finite stack, and otherwise a next state. The class 0xF words, the overflow and the
unchanged state are the spec's own decisions D10, D11 and D13 (logs 3, 4, 12). -/
def Obligations.EveryWordHasOneOutcome : Prop :=
  ∀ (s : State) (w : Word), s.cfg.memSize = 65536 → s.Fetches w →
    (w = 0x0000#16 → step s = .fault (.haltSignal s.pc)) ∧
    (Unrecognised s.cfg.addINN w → step s = .fault (.unknownOpcode w s.pc)) ∧
    (fieldClass w = 0x2#4 → s.cfg.stackDepth = some s.stack.length → step s = .fault (.stackOverflow w s.pc)) ∧
    (w ≠ 0x0000#16 → ¬ Unrecognised s.cfg.addINN w →
      ¬ (fieldClass w = 0x2#4 ∧ s.cfg.stackDepth = some s.stack.length) → ∃ t, step s = .next t)

/-- R33, R126: a step is refused exactly when an address it reads is outside the store, and by that name. The refusal is
the spec's decision D4 (log 7). -/
def Obligations.StepIsRefusedExactlyOutsideTheStore : Prop :=
  ∀ s : State,
    ((∃ r, step s = .refused r) ↔ ∃ a ∈ stepReads s, s.cfg.memSize ≤ a.toNat) ∧
    ∀ r, step s = .refused r → ∃ a ∈ stepReads s, s.cfg.memSize ≤ a.toNat ∧ r = .outsideStore a

/-- R30, R38, R109: a step depends on memory only through the two fetch bytes and, for DRW, the `n` sprite bytes: over
any memory that agrees there, it does the same. -/
def Obligations.StepDependsOnlyOnTheBytesItReads : Prop :=
  ∀ (s : State) (m : Memory), (∀ a ∈ stepReads s, m.read a.toNat = s.mem.read a.toNat) →
    step (s.withMem m) = outcomeWithMem m (step s)

/-- R38: two reads, and `n` more for DRW, whose rows the core reads itself (D15, log 9). -/
def Obligations.StepReadsTwoBytesAndTheSpriteRows : Prop :=
  ∀ s : State, (∀ x y n, s.AtInstr (.drw x y n) → (stepReads s).length = 2 + n.toNat) ∧
    ((∀ x y n, ¬ s.AtInstr (.drw x y n)) → stepReads s = [s.pc, s.pc + 1#16])

/-- R71 (a), R137: RET on an empty stack is an infinite run of successful steps, none of which changes anything: the
leniency the spec's decision D12 keeps (log 21). -/
def Obligations.EmptyReturnRunsForEver : Prop :=
  ∀ (s : State) (dc : Nibble) (k : Nat), s.AtInstr (.ret dc) → s.stack = [] →
    Host.Core.run Sys2Proof.core k s = .next s

/-- R72 (a), R138: a JP to its own address is an infinite run of successful steps, none of which changes anything. -/
def Obligations.JumpToItselfRunsForEver : Prop :=
  ∀ (s : State) (nnn : Addr12) (k : Nat), s.AtInstr (.jp nnn) → nnn.toNat = s.pc.toNat →
    Host.Core.run Sys2Proof.core k s = .next s

/-- R116, R121: after a fatal condition the core holds the state before the step, and a further step raises the same
condition. That the aborted step changes nothing is the spec's decision D13 (log 12). -/
def Obligations.FatalConditionKeepsStateAndRepeats : Prop :=
  ∀ (s : State) (f : Fault), step s = .fault f → afterStep s = some s ∧ (afterStep s).map step = some (.fault f)

/-- R115: the reported word is the fetched word and the reported `pc` the one before the step, for all three conditions,
and a successful step reports none. The numbers are the spec's own (D14, log 20). -/
def Obligations.FaultSignalsReportTheFetchedWordAndPc : Prop :=
  (∀ (s : State) (w : Word) (f : Fault), s.Fetches w → step s = .fault f →
    stepSignals s = some { event := none, faultKind := f.kind, faultContext := some (w, s.pc) } ∧
    ((f.kind = 1#2 ↔ w = 0x0000#16) ∧ (f.kind = 2#2 ↔ Unrecognised s.cfg.addINN w) ∧
      (f.kind = 3#2 ↔ fieldClass w = 0x2#4))) ∧
  ∀ s t : State, step s = .next t → ∃ e, stepSignals s = some { event := e, faultKind := 0#2, faultContext := none } ∧
    t.events = s.events ++ e.toList

/-! ## Calls and returns along a run -/

/-- R19, R40, R143: while a run never makes the stack shallower than `d`, its `d` oldest entries stay: a return address
cannot be read, changed or discarded but by RET. -/
def Obligations.ReturnAddressesBelowStayUntouched : Prop :=
  ∀ (d k : Nat) (s t : State), Run (fun u => d ≤ u.stack.length) k s t →
    bottomEntries d t.stack = bottomEntries d s.stack

/-- R73 (d): after a CALL at `P`, any run that never returns from the callee and ends with the stack as deep as just
after the CALL, and then a RET, leaves `pc` at `P +16 2` and the stack as before the CALL. -/
def Obligations.BalancedCallReturnsAfterTheCall : Prop :=
  ∀ (s s1 s2 : State) (nnn : Addr12) (dc : Nibble) (k : Nat),
    s.AtInstr (.call nnn) → step s = .next s1 →
    Run (fun u => s1.stack.length ≤ u.stack.length) k s1 s2 → s2.stack.length = s1.stack.length →
    s2.AtInstr (.ret dc) →
    ∃ t, step s2 = .next t ∧ t.pc = s.pc + 2#16 ∧ t.stack = s.stack

/-! ## The boundary: loader, placed words, memory form -/

/-- R130, R126: the driver's `reset` is re-initialisation at any time, `step` is a step, and any other action is
refused. Reset as an input is the spec's decision D20 (log 20). -/
def Obligations.DriverMayOnlyStepAndReset : Prop :=
  ∀ s : State, drive .reset s = .next s.reinit ∧ drive .step s = step s ∧ drive .other s = .refused .driverAction

/-- R133: the loader places byte `k` of an image that fits at 0x200 + `k` and touches nothing else; the first byte is the
high byte of the first instruction. That an image must fit is the model's (log 18). -/
def Obligations.LoaderPlacesTheImageAtTheOrigin : Prop :=
  ∀ (image : List Byte) (s : State), s.mem.wf → 0x200 + image.length ≤ s.cfg.memSize →
    ∃ t, loadImage image s = .next t ∧ t.mem.wf ∧
      (∀ k (h : k < image.length), t.mem.read (0x200 + k) = image[k]) ∧
      (∀ a, (a < 0x200 ∨ 0x200 + image.length ≤ a) → t.mem.read a = s.mem.read a) ∧
      t.withMem s.mem = s

/-- A word placed where the next fetch reads it (the model's own operation, log 18) is the word fetched, and every other
byte reads as before. -/
def Obligations.PlacedWordIsTheNextFetched : Prop :=
  ∀ (s : State) (n : Nat), s.mem.wf → n < 65536 →
    (s.withFetchWord 16 n).fetchWord = .ok (BitVec.ofNat 16 n) ∧ (s.withFetchWord 16 n).mem.wf ∧
    (∀ a, a ≠ s.pc.toNat → a ≠ (s.pc + 1#16).toNat → (s.withFetchWord 16 n).mem.read a = s.mem.read a)

/-- The canonical form is canonical (log 6): two memories in it that read the same at every address are equal. -/
def Obligations.CanonicalMemoriesWithEqualBytesAreEqual : Prop :=
  ∀ m m' : Memory, m.wf → m'.wf → (∀ a, m.read a = m'.read a) → m = m'
end

