-- ==== Sys2Proof/Laws/Decode.lean ====
section
/-! SUPPORT. The fields of an encoded word, a word made of its fields, the fields under the masks of the opcode map, and
the decoder class by class. -/

namespace Sys2Proof

section Fields
variable (c x y n : Nibble) (nn : Byte) (nnn : Addr12) (w : Word)

/-! ## Fields of a word made of fields -/

@[simp] theorem fieldClass_wordXYN : fieldClass (wordXYN c x y n) = c := by
  ext i hi
  interval_cases i <;> simp [fieldClass, wordXYN]

@[simp] theorem fieldX_wordXYN : fieldX (wordXYN c x y n) = x := by
  ext i hi
  interval_cases i <;> simp [fieldX, wordXYN]

@[simp] theorem fieldY_wordXYN : fieldY (wordXYN c x y n) = y := by
  ext i hi
  interval_cases i <;> simp [fieldY, wordXYN]

@[simp] theorem fieldN_wordXYN : fieldN (wordXYN c x y n) = n := by
  ext i hi
  interval_cases i <;> simp [fieldN, wordXYN]

@[simp] theorem fieldClass_wordXNN : fieldClass (wordXNN c x nn) = c := by
  ext i hi
  interval_cases i <;> simp [fieldClass, wordXNN]

@[simp] theorem fieldX_wordXNN : fieldX (wordXNN c x nn) = x := by
  ext i hi
  interval_cases i <;> simp [fieldX, wordXNN]

@[simp] theorem fieldNN_wordXNN : fieldNN (wordXNN c x nn) = nn := by
  ext i hi
  interval_cases i <;> simp [fieldNN, wordXNN]

@[simp] theorem fieldClass_wordNNN : fieldClass (wordNNN c nnn) = c := by
  ext i hi
  interval_cases i <;> simp [fieldClass, wordNNN]

@[simp] theorem fieldNNN_wordNNN : fieldNNN (wordNNN c nnn) = nnn := by
  ext i hi
  interval_cases i <;> simp [fieldNNN, wordNNN]

/-! ## A word made of its own fields -/

theorem wordXYN_fields : wordXYN (fieldClass w) (fieldX w) (fieldY w) (fieldN w) = w := by
  ext i hi
  interval_cases i <;> simp [wordXYN, fieldClass, fieldX, fieldY, fieldN]

theorem wordXNN_fields : wordXNN (fieldClass w) (fieldX w) (fieldNN w) = w := by
  ext i hi
  interval_cases i <;> simp [wordXNN, fieldClass, fieldX, fieldNN]

theorem wordNNN_fields : wordNNN (fieldClass w) (fieldNNN w) = w := by
  ext i hi
  interval_cases i <;> simp [wordNNN, fieldClass, fieldNNN]

theorem joinBytes_highByte_lowByte : joinBytes (highByte w) (lowByte w) = w := by
  ext i hi
  interval_cases i <;> simp [joinBytes, highByte, lowByte]

@[simp] theorem highByte_joinBytes (hi lo : Byte) : highByte (joinBytes hi lo) = hi := by
  ext i h
  interval_cases i <;> simp [highByte, joinBytes]

@[simp] theorem lowByte_joinBytes (hi lo : Byte) : lowByte (joinBytes hi lo) = lo := by
  ext i h
  interval_cases i <;> simp [lowByte, joinBytes]

/-! ## Fields under the masks of the opcode map (R50) -/

theorem fieldClass_maskF000 : fieldClass (w &&& 0xF000#16) = fieldClass w := by
  ext i hi
  interval_cases i <;> simp [fieldClass]

theorem fieldClass_maskF0FF : fieldClass (w &&& 0xF0FF#16) = fieldClass w := by
  ext i hi
  interval_cases i <;> simp [fieldClass]

theorem fieldClass_maskF00F : fieldClass (w &&& 0xF00F#16) = fieldClass w := by
  ext i hi
  interval_cases i <;> simp [fieldClass]

theorem fieldNN_maskF0FF : fieldNN (w &&& 0xF0FF#16) = fieldNN w := by
  ext i hi
  interval_cases i <;> simp [fieldNN]

theorem fieldN_maskF00F : fieldN (w &&& 0xF00F#16) = fieldN w := by
  ext i hi
  interval_cases i <;> simp [fieldN]

end Fields

/-! ## The decoder -/

theorem decodeWord_zero (addINN : Byte) : decodeWord addINN 0x0000#16 = some .halt0 := rfl

theorem decodeWord_of_ne_zero (addINN : Byte) {w : Word} (h : w ≠ 0x0000#16) : decodeWord addINN w = decodeTree addINN w :=
  if_neg h

theorem ne_zero_of_fieldClass {w : Word} {c : Nibble} (h : fieldClass w = c) (hc : c ≠ 0x0#4) : w ≠ 0x0000#16 := by
  rintro rfl
  exact hc h.symm

theorem ne_zero_of_fieldNN {w : Word} {b : Byte} (h : fieldNN w = b) (hb : b ≠ 0x00#8) : w ≠ 0x0000#16 := by
  rintro rfl
  exact hb h.symm

/-- Away from class 0x0 the halt word plays no part. -/
theorem decodeWord_of_fieldClass (addINN : Byte) {w : Word} {c : Nibble} (h : fieldClass w = c) (hc : c ≠ 0x0#4) :
    decodeWord addINN w = decodeTree addINN w :=
  decodeWord_of_ne_zero addINN (ne_zero_of_fieldClass h hc)

/-- A whole-class row (mask 0xF000): the class of a word that matches it. -/
theorem fieldClass_of_maskF000 {w v : Word} (h : w &&& 0xF000#16 = v) : fieldClass w = fieldClass v := by
  rw [← fieldClass_maskF000, h]

/-- A row with mask 0xF0FF: class and low byte of a word that matches it. -/
theorem fields_of_maskF0FF {w v : Word} (h : w &&& 0xF0FF#16 = v) :
    fieldClass w = fieldClass v ∧ fieldNN w = fieldNN v := by
  rw [← fieldClass_maskF0FF, ← fieldNN_maskF0FF, h]
  exact ⟨rfl, rfl⟩

/-- A row with mask 0xF00F: class and low nibble of a word that matches it. -/
theorem fields_of_maskF00F {w v : Word} (h : w &&& 0xF00F#16 = v) :
    fieldClass w = fieldClass v ∧ fieldN w = fieldN v := by
  rw [← fieldClass_maskF00F, ← fieldN_maskF00F, h]
  exact ⟨rfl, rfl⟩

end Sys2Proof
end

