-- ==== Sys2Proof/Laws/Memory.lean ====
section
/-! SUPPORT. The Memory Store: a read after a write, that every operation keeps the canonical form, and where its
entries lie. -/

namespace Sys2Proof.Machine

@[simp] theorem Memory.read_nil (a : Nat) : Memory.read [] a = unlistedByte := rfl

theorem Memory.read_put (m : Memory) (a c : Nat) (b : Byte) (h : ∀ e ∈ m, a < e.1) :
    (Memory.put a b m).read c = if c = a then b else m.read c := by
  have hm : m.read a = unlistedByte := by
    induction m with
    | nil => rfl
    | cons e rest ih =>
      obtain ⟨k, x⟩ := e
      have hk : a < k := h (k, x) (by simp)
      have : k ≠ a := by omega
      simp only [Memory.read, if_neg this]
      exact ih (fun e he => h e (by simp [he]))
  unfold Memory.put
  by_cases hb : b = unlistedByte
  · by_cases hc : c = a
    · subst hc; simp [hb, hm]
    · simp [hb, hc]
  · by_cases hc : c = a
    · subst hc; simp [hb, Memory.read]
    · have : a ≠ c := fun e => hc e.symm
      simp [hb, Memory.read, hc, this]

theorem Memory.wf_tail {e : Host.Cell} {m : Memory} (h : Memory.wf (e :: m)) :
    (∀ d ∈ m, e.1 < d.1) ∧ e.2 ≠ unlistedByte ∧ Memory.wf m := by
  obtain ⟨hp, hv⟩ := h
  rw [List.pairwise_cons] at hp
  exact ⟨hp.1, hv e (by simp), hp.2, fun c hc => hv c (by simp [hc])⟩

theorem Memory.wf_put {m : Memory} {a : Nat} {b : Byte} (hm : Memory.wf m) (h : ∀ e ∈ m, a < e.1) :
    Memory.wf (Memory.put a b m) := by
  unfold Memory.put
  split
  · exact hm
  · next hb =>
    refine ⟨List.pairwise_cons.2 ⟨fun d hd => h d hd, hm.1⟩, ?_⟩
    intro c hc
    rcases List.mem_cons.1 hc with rfl | hc
    · exact hb
    · exact hm.2 c hc

/-- Where the entries of a written memory come from. -/
theorem Memory.mem_write {m : Memory} {a : Nat} {b : Byte} {e : Host.Cell} (h : e ∈ m.write a b) :
    e = (a, b) ∨ e ∈ m := by
  induction m with
  | nil =>
    simp only [Memory.write, Memory.put] at h
    split at h <;> simp_all
  | cons d rest ih =>
    obtain ⟨k, x⟩ := d
    simp only [Memory.write, Memory.put] at h
    split at h
    · split at h <;> simp_all
    · split at h
      · split at h <;> simp_all
        tauto
      · rcases List.mem_cons.1 h with rfl | h
        · exact .inr (by simp)
        · rcases ih h with rfl | h
          · exact .inl rfl
          · exact .inr (by simp [h])

/-- A write keeps the canonical form. -/
theorem Memory.wf_write {m : Memory} (hm : Memory.wf m) (a : Nat) (b : Byte) : Memory.wf (m.write a b) := by
  induction m with
  | nil => exact Memory.wf_put hm (by simp)
  | cons d rest ih =>
    obtain ⟨k, x⟩ := d
    obtain ⟨hlt, hx, hr⟩ := Memory.wf_tail hm
    simp only [Memory.write]
    split
    · next h =>
      refine Memory.wf_put hm (fun e he => ?_)
      rcases List.mem_cons.1 he with rfl | he
      · exact h
      · exact lt_trans h (hlt e he)
    · split
      · next h => exact Memory.wf_put hr (fun e he => by have := hlt e he; simp_all)
      · next h1 h2 =>
        have hw := ih hr
        refine ⟨List.pairwise_cons.2 ⟨fun e he => ?_, hw.1⟩, fun c hc => ?_⟩
        · rcases Memory.mem_write he with rfl | he
          · show k < a
            omega
          · exact hlt e he
        · rcases List.mem_cons.1 hc with rfl | hc
          · exact hx
          · exact hw.2 c hc

/-- A read after a write, in a memory in canonical form. -/
theorem Memory.read_write {m : Memory} (hm : Memory.wf m) (a c : Nat) (b : Byte) :
    (m.write a b).read c = if c = a then b else m.read c := by
  induction m with
  | nil => exact Memory.read_put [] a c b (by simp)
  | cons d rest ih =>
    obtain ⟨k, x⟩ := d
    obtain ⟨hlt, hx, hr⟩ := Memory.wf_tail hm
    simp only [Memory.write]
    split
    · next h =>
      refine Memory.read_put _ a c b (fun e he => ?_)
      rcases List.mem_cons.1 he with rfl | he
      · exact h
      · exact lt_trans h (hlt e he)
    · split
      · next h =>
        subst h
        rw [Memory.read_put rest a c b hlt]
        by_cases hc : c = a
        · simp [hc]
        · have : a ≠ c := fun e => hc e.symm
          simp [Memory.read, hc, this]
      · next h1 h2 =>
        simp only [Memory.read, ih hr]
        by_cases hk : k = c
        · have : c ≠ a := by omega
          simp [hk, this]
        · simp [hk]

theorem Memory.wf_writeAll {m : Memory} (hm : Memory.wf m) (a : Nat) (bs : List Byte) : Memory.wf (m.writeAll a bs) := by
  induction bs generalizing m a with
  | nil => exact hm
  | cons b rest ih => exact ih (Memory.wf_write hm a b) (a + 1)

end Sys2Proof.Machine
end

