-- ==== Sys2Proof/Laws/State.lean ====
section
/-! SUPPORT. One lemma per field per update of the state, and what a register reads after each update. -/

namespace Sys2Proof.Machine

variable (s : State)

@[simp] theorem State.setReg_cfg (r : RegIdx) (b : Byte) : (s.setReg r b).cfg = s.cfg := rfl
@[simp] theorem State.setReg_v (r : RegIdx) (b : Byte) : (s.setReg r b).v = s.v.set r.toNat b r.isLt := rfl
@[simp] theorem State.setReg_i (r : RegIdx) (b : Byte) : (s.setReg r b).i = s.i := rfl
@[simp] theorem State.setReg_pc (r : RegIdx) (b : Byte) : (s.setReg r b).pc = s.pc := rfl
@[simp] theorem State.setReg_stack (r : RegIdx) (b : Byte) : (s.setReg r b).stack = s.stack := rfl
@[simp] theorem State.setReg_mem (r : RegIdx) (b : Byte) : (s.setReg r b).mem = s.mem := rfl
@[simp] theorem State.setReg_rand (r : RegIdx) (b : Byte) : (s.setReg r b).rand = s.rand := rfl
@[simp] theorem State.setReg_events (r : RegIdx) (b : Byte) : (s.setReg r b).events = s.events := rfl

@[simp] theorem State.setI_cfg (a : Word) : (s.setI a).cfg = s.cfg := rfl
@[simp] theorem State.setI_v (a : Word) : (s.setI a).v = s.v := rfl
@[simp] theorem State.setI_i (a : Word) : (s.setI a).i = a := rfl
@[simp] theorem State.setI_pc (a : Word) : (s.setI a).pc = s.pc := rfl
@[simp] theorem State.setI_stack (a : Word) : (s.setI a).stack = s.stack := rfl
@[simp] theorem State.setI_mem (a : Word) : (s.setI a).mem = s.mem := rfl
@[simp] theorem State.setI_rand (a : Word) : (s.setI a).rand = s.rand := rfl
@[simp] theorem State.setI_events (a : Word) : (s.setI a).events = s.events := rfl

@[simp] theorem State.setPc_cfg (a : Word) : (s.setPc a).cfg = s.cfg := rfl
@[simp] theorem State.setPc_v (a : Word) : (s.setPc a).v = s.v := rfl
@[simp] theorem State.setPc_i (a : Word) : (s.setPc a).i = s.i := rfl
@[simp] theorem State.setPc_pc (a : Word) : (s.setPc a).pc = a := rfl
@[simp] theorem State.setPc_stack (a : Word) : (s.setPc a).stack = s.stack := rfl
@[simp] theorem State.setPc_mem (a : Word) : (s.setPc a).mem = s.mem := rfl
@[simp] theorem State.setPc_rand (a : Word) : (s.setPc a).rand = s.rand := rfl
@[simp] theorem State.setPc_events (a : Word) : (s.setPc a).events = s.events := rfl

@[simp] theorem State.push_cfg (a : Word) : (s.push a).cfg = s.cfg := rfl
@[simp] theorem State.push_v (a : Word) : (s.push a).v = s.v := rfl
@[simp] theorem State.push_i (a : Word) : (s.push a).i = s.i := rfl
@[simp] theorem State.push_pc (a : Word) : (s.push a).pc = s.pc := rfl
@[simp] theorem State.push_stack (a : Word) : (s.push a).stack = a :: s.stack := rfl
@[simp] theorem State.push_mem (a : Word) : (s.push a).mem = s.mem := rfl
@[simp] theorem State.push_rand (a : Word) : (s.push a).rand = s.rand := rfl
@[simp] theorem State.push_events (a : Word) : (s.push a).events = s.events := rfl

@[simp] theorem State.dropTop_cfg : s.dropTop.cfg = s.cfg := rfl
@[simp] theorem State.dropTop_v : s.dropTop.v = s.v := rfl
@[simp] theorem State.dropTop_i : s.dropTop.i = s.i := rfl
@[simp] theorem State.dropTop_pc : s.dropTop.pc = s.pc := rfl
@[simp] theorem State.dropTop_stack : s.dropTop.stack = s.stack.tail := rfl
@[simp] theorem State.dropTop_mem : s.dropTop.mem = s.mem := rfl
@[simp] theorem State.dropTop_rand : s.dropTop.rand = s.rand := rfl
@[simp] theorem State.dropTop_events : s.dropTop.events = s.events := rfl

@[simp] theorem State.drawRandom_cfg : s.drawRandom.cfg = s.cfg := rfl
@[simp] theorem State.drawRandom_v : s.drawRandom.v = s.v := rfl
@[simp] theorem State.drawRandom_i : s.drawRandom.i = s.i := rfl
@[simp] theorem State.drawRandom_pc : s.drawRandom.pc = s.pc := rfl
@[simp] theorem State.drawRandom_stack : s.drawRandom.stack = s.stack := rfl
@[simp] theorem State.drawRandom_mem : s.drawRandom.mem = s.mem := rfl
@[simp] theorem State.drawRandom_rand : s.drawRandom.rand = s.rand.next := rfl
@[simp] theorem State.drawRandom_events : s.drawRandom.events = s.events := rfl

@[simp] theorem State.emit_cfg (e : DisplayEvent) : (s.emit e).cfg = s.cfg := rfl
@[simp] theorem State.emit_v (e : DisplayEvent) : (s.emit e).v = s.v := rfl
@[simp] theorem State.emit_i (e : DisplayEvent) : (s.emit e).i = s.i := rfl
@[simp] theorem State.emit_pc (e : DisplayEvent) : (s.emit e).pc = s.pc := rfl
@[simp] theorem State.emit_stack (e : DisplayEvent) : (s.emit e).stack = s.stack := rfl
@[simp] theorem State.emit_mem (e : DisplayEvent) : (s.emit e).mem = s.mem := rfl
@[simp] theorem State.emit_rand (e : DisplayEvent) : (s.emit e).rand = s.rand := rfl
@[simp] theorem State.emit_events (e : DisplayEvent) : (s.emit e).events = s.events ++ [e] := rfl

@[simp] theorem State.advance_cfg : s.advance.cfg = s.cfg := rfl
@[simp] theorem State.advance_v : s.advance.v = s.v := rfl
@[simp] theorem State.advance_i : s.advance.i = s.i := rfl
@[simp] theorem State.advance_pc : s.advance.pc = s.pc + 2#16 := rfl
@[simp] theorem State.advance_stack : s.advance.stack = s.stack := rfl
@[simp] theorem State.advance_mem : s.advance.mem = s.mem := rfl
@[simp] theorem State.advance_rand : s.advance.rand = s.rand := rfl
@[simp] theorem State.advance_events : s.advance.events = s.events := rfl

@[simp] theorem State.skipWhen_cfg (c : Bool) : (s.skipWhen c).cfg = s.cfg := rfl
@[simp] theorem State.skipWhen_v (c : Bool) : (s.skipWhen c).v = s.v := rfl
@[simp] theorem State.skipWhen_i (c : Bool) : (s.skipWhen c).i = s.i := rfl
@[simp] theorem State.skipWhen_pc (c : Bool) : (s.skipWhen c).pc = (if c then s.pc + 4#16 else s.pc + 2#16) := rfl
@[simp] theorem State.skipWhen_stack (c : Bool) : (s.skipWhen c).stack = s.stack := rfl
@[simp] theorem State.skipWhen_mem (c : Bool) : (s.skipWhen c).mem = s.mem := rfl
@[simp] theorem State.skipWhen_rand (c : Bool) : (s.skipWhen c).rand = s.rand := rfl
@[simp] theorem State.skipWhen_events (c : Bool) : (s.skipWhen c).events = s.events := rfl

@[simp] theorem State.reinit_cfg : s.reinit.cfg = s.cfg := rfl
@[simp] theorem State.reinit_v : s.reinit.v = State.reset.v := rfl
@[simp] theorem State.reinit_i : s.reinit.i = 0x0000#16 := rfl
@[simp] theorem State.reinit_pc : s.reinit.pc = 0x0200#16 := rfl
@[simp] theorem State.reinit_stack : s.reinit.stack = [] := rfl
@[simp] theorem State.reinit_mem : s.reinit.mem = s.mem := rfl
@[simp] theorem State.reinit_rand : s.reinit.rand = s.rand := rfl
@[simp] theorem State.reinit_events : s.reinit.events = s.events := rfl

@[simp] theorem State.placeWord_i (w : Word) : (s.placeWord w).i = s.i := rfl
@[simp] theorem State.placeWord_pc (w : Word) : (s.placeWord w).pc = s.pc := rfl
@[simp] theorem State.placeWord_stack (w : Word) : (s.placeWord w).stack = s.stack := rfl
theorem State.placeWord_mem (w : Word) : (s.placeWord w).mem =
    (s.mem.write s.pc.toNat (highByte w)).write (s.pc + 1#16).toNat (lowByte w) := rfl
@[simp] theorem State.placeWord_rand (w : Word) : (s.placeWord w).rand = s.rand := rfl
@[simp] theorem State.placeWord_events (w : Word) : (s.placeWord w).events = s.events := rfl
@[simp] theorem State.placeWord_v (w : Word) : (s.placeWord w).v = s.v := rfl

/-! ## Registers -/

@[simp] theorem State.reg_setReg_same (r : RegIdx) (b : Byte) : (s.setReg r b).reg r = b := by
  simp [State.reg]

theorem State.reg_setReg (r q : RegIdx) (b : Byte) : (s.setReg r b).reg q = if q = r then b else s.reg q := by
  by_cases h : q = r
  · subst h; simp
  · have hn : r.toNat ≠ q.toNat := fun e => h (BitVec.eq_of_toNat_eq e.symm)
    simp [State.reg, h, hn]

theorem State.reg_setReg_other {r q : RegIdx} (b : Byte) (h : q ≠ r) : (s.setReg r b).reg q = s.reg q := by
  rw [State.reg_setReg, if_neg h]

@[simp] theorem State.reg_setI (a : Word) (q : RegIdx) : (s.setI a).reg q = s.reg q := rfl
@[simp] theorem State.reg_setPc (a : Word) (q : RegIdx) : (s.setPc a).reg q = s.reg q := rfl
@[simp] theorem State.reg_push (a : Word) (q : RegIdx) : (s.push a).reg q = s.reg q := rfl
@[simp] theorem State.reg_dropTop (q : RegIdx) : s.dropTop.reg q = s.reg q := rfl
@[simp] theorem State.reg_drawRandom (q : RegIdx) : s.drawRandom.reg q = s.reg q := rfl
@[simp] theorem State.reg_emit (e : DisplayEvent) (q : RegIdx) : (s.emit e).reg q = s.reg q := rfl
@[simp] theorem State.reg_advance (q : RegIdx) : s.advance.reg q = s.reg q := rfl
@[simp] theorem State.reg_skipWhen (c : Bool) (q : RegIdx) : (s.skipWhen c).reg q = s.reg q := rfl
@[simp] theorem State.reg_placeWord (w : Word) (q : RegIdx) : (s.placeWord w).reg q = s.reg q := rfl

theorem State.reg_reset (q : RegIdx) : State.reset.reg q = 0x00#8 := by
  simp [State.reg, State.reset]

theorem State.reg_reinit (q : RegIdx) : s.reinit.reg q = 0x00#8 := State.reg_reset q

/-! ## The flagged write (R80): the result first, the flag last -/

section Flagged
variable (x : RegIdx) (result flag : Byte)

@[simp] theorem State.writeFlagged_cfg : (s.writeFlagged x result flag).cfg = s.cfg := rfl
@[simp] theorem State.writeFlagged_i : (s.writeFlagged x result flag).i = s.i := rfl
@[simp] theorem State.writeFlagged_pc : (s.writeFlagged x result flag).pc = s.pc := rfl
@[simp] theorem State.writeFlagged_stack : (s.writeFlagged x result flag).stack = s.stack := rfl
@[simp] theorem State.writeFlagged_mem : (s.writeFlagged x result flag).mem = s.mem := rfl
@[simp] theorem State.writeFlagged_rand : (s.writeFlagged x result flag).rand = s.rand := rfl
@[simp] theorem State.writeFlagged_events : (s.writeFlagged x result flag).events = s.events := rfl

@[simp] theorem State.writeFlagged_flag : (s.writeFlagged x result flag).reg flagReg = flag := by
  simp [State.writeFlagged]

theorem State.writeFlagged_dest (h : x ≠ flagReg) : (s.writeFlagged x result flag).reg x = result := by
  simp [State.writeFlagged, State.reg_setReg, h]

theorem State.writeFlagged_other {q : RegIdx} (hx : q ≠ x) (hf : q ≠ flagReg) :
    (s.writeFlagged x result flag).reg q = s.reg q := by
  simp [State.writeFlagged, State.reg_setReg, hx, hf]

end Flagged

end Sys2Proof.Machine
end

