-- ==== Sys2Proof/Laws/Ops.lean ====
section
/-! SUPPORT. What each shared operation can do: memory reads, the fetch, the sprite rows. -/

namespace Sys2Proof.Machine

theorem State.inStore_iff (s : State) (a : Word) : s.inStore a = true ↔ a.toNat < s.cfg.memSize := by
  simp [State.inStore]

theorem State.memRead_ok_iff (s : State) (a : Word) (b : Byte) :
    s.memRead a = .ok b ↔ a.toNat < s.cfg.memSize ∧ b = s.mem.read a.toNat := by
  unfold State.memRead State.inStore
  by_cases h : a.toNat < s.cfg.memSize <;> simp [h, eq_comm]

theorem State.memRead_error_iff (s : State) (a : Word) (r : Refusal) :
    s.memRead a = .error r ↔ ¬ a.toNat < s.cfg.memSize ∧ r = .outsideStore a := by
  unfold State.memRead State.inStore
  by_cases h : a.toNat < s.cfg.memSize <;> simp [h, eq_comm]

/-- Reading several addresses succeeds exactly when all are in the store, and gives their bytes in order. -/
theorem State.memReadAll_ok_iff (s : State) (l : List Word) (bs : List Byte) :
    s.memReadAll l = .ok bs ↔
      (∀ a ∈ l, a.toNat < s.cfg.memSize) ∧ bs = l.map (fun a => s.mem.read a.toNat) := by
  induction l generalizing bs with
  | nil => simp [State.memReadAll, eq_comm]
  | cons a rest ih =>
    unfold State.memReadAll
    cases hr : s.memRead a with
    | error r => simp [((s.memRead_error_iff a r).1 hr).1]
    | ok b =>
      obtain ⟨ha, hb⟩ := (s.memRead_ok_iff a b).1 hr
      cases hs : s.memReadAll rest with
      | error r =>
        have : ¬ ∀ c ∈ rest, c.toNat < s.cfg.memSize := fun h => by
          have := (ih (rest.map fun c => s.mem.read c.toNat)).2 ⟨h, rfl⟩
          simp [hs] at this
        simp only [List.mem_cons, forall_eq_or_imp, ha, true_and]
        simp [this]
      | ok cs =>
        obtain ⟨h1, h2⟩ := (ih cs).1 hs
        subst h2 hb
        simp only [List.mem_cons, forall_eq_or_imp, ha, true_and, List.map_cons]
        exact ⟨fun h => ⟨h1, by cases h; rfl⟩, fun h => by rw [h.2]⟩

/-- A refused reading names one of the addresses, outside the store. -/
theorem State.memReadAll_error (s : State) (l : List Word) (r : Refusal) (h : s.memReadAll l = .error r) :
    ∃ a ∈ l, ¬ a.toNat < s.cfg.memSize ∧ r = .outsideStore a := by
  induction l with
  | nil => simp [State.memReadAll] at h
  | cons a rest ih =>
    unfold State.memReadAll at h
    cases hr : s.memRead a with
    | error q =>
      rw [hr] at h
      obtain ⟨h1, h2⟩ := (s.memRead_error_iff a q).1 hr
      cases h
      exact ⟨a, by simp, h1, h2⟩
    | ok b =>
      rw [hr] at h
      cases hs : s.memReadAll rest with
      | error q =>
        rw [hs] at h
        cases h
        obtain ⟨c, hc, h1, h2⟩ := ih hs
        exact ⟨c, by simp [hc], h1, h2⟩
      | ok cs => rw [hs] at h; cases h

@[simp] theorem rowAddrs_length (base : Word) (n : Nat) : (rowAddrs base n).length = n := by
  simp [rowAddrs]

theorem mem_rowAddrs {base a : Word} {n : Nat} : a ∈ rowAddrs base n ↔ ∃ k < n, a = rowAddr base k := by
  simp [rowAddrs, eq_comm]

/-- The fetch gives a word exactly when both bytes are in the store, and it is the big-endian one. -/
theorem State.fetchWord_ok_iff (s : State) (w : Word) : s.fetchWord = .ok w ↔ s.Fetches w := by
  unfold State.fetchWord State.Fetches
  cases h1 : s.memRead s.pc with
  | error r => simp [((s.memRead_error_iff _ r).1 h1).1]
  | ok hi =>
    obtain ⟨a1, b1⟩ := (s.memRead_ok_iff _ hi).1 h1
    cases h2 : s.memRead (s.pc + 1#16) with
    | error r =>
      have hn := ((s.memRead_error_iff _ r).1 h2).1
      simp only [reduceCtorEq, false_iff]
      exact fun h => hn h.2.1
    | ok lo =>
      obtain ⟨a2, b2⟩ := (s.memRead_ok_iff _ lo).1 h2
      subst b1 b2
      constructor
      · intro h
        cases h
        exact ⟨a1, a2, rfl⟩
      · rintro ⟨-, -, rfl⟩
        rfl

/-- A refused fetch names `pc` or `pc +16 1`, outside the store. -/
theorem State.fetchWord_error (s : State) (r : Refusal) (h : s.fetchWord = .error r) :
    ∃ a ∈ s.fetchAddrs, ¬ a.toNat < s.cfg.memSize ∧ r = .outsideStore a := by
  unfold State.fetchWord at h
  cases h1 : s.memRead s.pc with
  | error q =>
    rw [h1] at h; cases h
    exact ⟨s.pc, by simp [State.fetchAddrs], (s.memRead_error_iff _ _).1 h1⟩
  | ok hi =>
    rw [h1] at h
    cases h2 : s.memRead (s.pc + 1#16) with
    | error q =>
      rw [h2] at h; cases h
      exact ⟨s.pc + 1#16, by simp [State.fetchAddrs], (s.memRead_error_iff _ _).1 h2⟩
    | ok lo => rw [h2] at h; cases h

/-- The fetched word is one word. -/
theorem State.Fetches_unique {s : State} {w w' : Word} (h : s.Fetches w) (h' : s.Fetches w') : w = w' := by
  rw [h.2.2, h'.2.2]

end Sys2Proof.Machine
end

