-- ==== Sys2Proof/Laws/PerInstr.lean ====
section
/-! SUPPORT. Laws of every instruction as syntax, one lemma per constructor. The family `EncodingSelectsRow`: the word of
an instruction has the mask and match of its row of the opcode map (spec/30_encoding.md R50, R51). -/

namespace Sys2Proof.Laws

/-- Two words are equal under a mask if all 16 bits are. -/
theorem selects_of_bits (r : OpcodeRow) (w : Word) (h : ∀ k < 16, (w &&& r.mask).getLsbD k = r.value.getLsbD k) :
    r.selects w = true := by
  simp only [OpcodeRow.selects, beq_iff_eq]
  exact BitVec.eq_of_getLsbD_eq h

/-- The statement of the family: the encoding of `i` selects the row of `i`. -/
def EncodingSelectsRow.Statement (i : Instr) : Prop :=
  ∀ addINN : Byte, (opcodeRow addINN i).selects (encode addINN i) = true

theorem EncodingSelectsRow.cls (dc : Nibble) : EncodingSelectsRow.Statement (.cls dc) := by
  refine fun _ => selects_of_bits _ _ fun k hk => ?_
  interval_cases k <;> simp [opcodeRow, encode, wordXNN]

theorem EncodingSelectsRow.ret (dc : Nibble) : EncodingSelectsRow.Statement (.ret dc) := by
  refine fun _ => selects_of_bits _ _ fun k hk => ?_
  interval_cases k <;> simp [opcodeRow, encode, wordXNN]

theorem EncodingSelectsRow.jp (nnn : Addr12) : EncodingSelectsRow.Statement (.jp nnn) := by
  refine fun _ => selects_of_bits _ _ fun k hk => ?_
  interval_cases k <;> simp [opcodeRow, encode, wordNNN]

theorem EncodingSelectsRow.call (nnn : Addr12) : EncodingSelectsRow.Statement (.call nnn) := by
  refine fun _ => selects_of_bits _ _ fun k hk => ?_
  interval_cases k <;> simp [opcodeRow, encode, wordNNN]

theorem EncodingSelectsRow.seImm (x : RegIdx) (nn : Byte) : EncodingSelectsRow.Statement (.seImm x nn) := by
  refine fun _ => selects_of_bits _ _ fun k hk => ?_
  interval_cases k <;> simp [opcodeRow, encode, wordXNN]

theorem EncodingSelectsRow.sneImm (x : RegIdx) (nn : Byte) : EncodingSelectsRow.Statement (.sneImm x nn) := by
  refine fun _ => selects_of_bits _ _ fun k hk => ?_
  interval_cases k <;> simp [opcodeRow, encode, wordXNN]

theorem EncodingSelectsRow.seReg (x y : RegIdx) (dc : Nibble) : EncodingSelectsRow.Statement (.seReg x y dc) := by
  refine fun _ => selects_of_bits _ _ fun k hk => ?_
  interval_cases k <;> simp [opcodeRow, encode, wordXYN]

theorem EncodingSelectsRow.ldImm (x : RegIdx) (nn : Byte) : EncodingSelectsRow.Statement (.ldImm x nn) := by
  refine fun _ => selects_of_bits _ _ fun k hk => ?_
  interval_cases k <;> simp [opcodeRow, encode, wordXNN]

theorem EncodingSelectsRow.addImm (x : RegIdx) (nn : Byte) : EncodingSelectsRow.Statement (.addImm x nn) := by
  refine fun _ => selects_of_bits _ _ fun k hk => ?_
  interval_cases k <;> simp [opcodeRow, encode, wordXNN]

theorem EncodingSelectsRow.ldReg (x y : RegIdx) : EncodingSelectsRow.Statement (.ldReg x y) := by
  refine fun _ => selects_of_bits _ _ fun k hk => ?_
  interval_cases k <;> simp [opcodeRow, encode, wordXYN]

theorem EncodingSelectsRow.or (x y : RegIdx) : EncodingSelectsRow.Statement (.or x y) := by
  refine fun _ => selects_of_bits _ _ fun k hk => ?_
  interval_cases k <;> simp [opcodeRow, encode, wordXYN]

theorem EncodingSelectsRow.and (x y : RegIdx) : EncodingSelectsRow.Statement (.and x y) := by
  refine fun _ => selects_of_bits _ _ fun k hk => ?_
  interval_cases k <;> simp [opcodeRow, encode, wordXYN]

theorem EncodingSelectsRow.xor (x y : RegIdx) : EncodingSelectsRow.Statement (.xor x y) := by
  refine fun _ => selects_of_bits _ _ fun k hk => ?_
  interval_cases k <;> simp [opcodeRow, encode, wordXYN]

theorem EncodingSelectsRow.addReg (x y : RegIdx) : EncodingSelectsRow.Statement (.addReg x y) := by
  refine fun _ => selects_of_bits _ _ fun k hk => ?_
  interval_cases k <;> simp [opcodeRow, encode, wordXYN]

theorem EncodingSelectsRow.sub (x y : RegIdx) : EncodingSelectsRow.Statement (.sub x y) := by
  refine fun _ => selects_of_bits _ _ fun k hk => ?_
  interval_cases k <;> simp [opcodeRow, encode, wordXYN]

theorem EncodingSelectsRow.shr (x : RegIdx) (dc : Nibble) : EncodingSelectsRow.Statement (.shr x dc) := by
  refine fun _ => selects_of_bits _ _ fun k hk => ?_
  interval_cases k <;> simp [opcodeRow, encode, wordXYN]

theorem EncodingSelectsRow.subn (x y : RegIdx) : EncodingSelectsRow.Statement (.subn x y) := by
  refine fun _ => selects_of_bits _ _ fun k hk => ?_
  interval_cases k <;> simp [opcodeRow, encode, wordXYN]

theorem EncodingSelectsRow.shl (x : RegIdx) (dc : Nibble) : EncodingSelectsRow.Statement (.shl x dc) := by
  refine fun _ => selects_of_bits _ _ fun k hk => ?_
  interval_cases k <;> simp [opcodeRow, encode, wordXYN]

theorem EncodingSelectsRow.sneReg (x y : RegIdx) (dc : Nibble) : EncodingSelectsRow.Statement (.sneReg x y dc) := by
  refine fun _ => selects_of_bits _ _ fun k hk => ?_
  interval_cases k <;> simp [opcodeRow, encode, wordXYN]

theorem EncodingSelectsRow.ldI (nnn : Addr12) : EncodingSelectsRow.Statement (.ldI nnn) := by
  refine fun _ => selects_of_bits _ _ fun k hk => ?_
  interval_cases k <;> simp [opcodeRow, encode, wordNNN]

theorem EncodingSelectsRow.jpV0 (nnn : Addr12) : EncodingSelectsRow.Statement (.jpV0 nnn) := by
  refine fun _ => selects_of_bits _ _ fun k hk => ?_
  interval_cases k <;> simp [opcodeRow, encode, wordNNN]

theorem EncodingSelectsRow.rnd (x : RegIdx) (nn : Byte) : EncodingSelectsRow.Statement (.rnd x nn) := by
  refine fun _ => selects_of_bits _ _ fun k hk => ?_
  interval_cases k <;> simp [opcodeRow, encode, wordXNN]

theorem EncodingSelectsRow.drw (x y : RegIdx) (n : Nibble) : EncodingSelectsRow.Statement (.drw x y n) := by
  refine fun _ => selects_of_bits _ _ fun k hk => ?_
  interval_cases k <;> simp [opcodeRow, encode, wordXYN]

theorem EncodingSelectsRow.addI (x : RegIdx) : EncodingSelectsRow.Statement (.addI x) := by
  refine fun _ => selects_of_bits _ _ fun k hk => ?_
  interval_cases k <;> simp [opcodeRow, encode, wordXNN]

theorem EncodingSelectsRow.halt0 : EncodingSelectsRow.Statement .halt0 :=
  fun _ => selects_of_bits _ _ fun k _ => by simp [opcodeRow, encode]

end Sys2Proof.Laws
end

