-- ==== Sys2Proof/Laws/Step.lean ====
section
/-! SUPPORT. What a step can do, said once, and what each meaning with more than one outcome can do. -/

namespace Sys2Proof.Machine

/-- A step on a fetched word. -/
theorem step_of_fetches {s : State} {w : Word} (h : s.Fetches w) :
    step s = match decodeWord s.cfg.addINN w with
      | none => .fault (.unknownOpcode w s.pc)
      | some i => exec i s := by
  unfold step
  rw [(s.fetchWord_ok_iff w).2 h]
  rfl

/-- Every step is a refused fetch, an unrecognised word, or the execution of the decoded instruction. -/
theorem step_cases (s : State) :
    (∃ a ∈ s.fetchAddrs, ¬ a.toNat < s.cfg.memSize ∧ step s = .refused (.outsideStore a)) ∨
    (∃ w, s.Fetches w ∧ decodeWord s.cfg.addINN w = none ∧ step s = .fault (.unknownOpcode w s.pc)) ∨
    (∃ w i, s.Fetches w ∧ decodeWord s.cfg.addINN w = some i ∧ step s = exec i s) := by
  cases h : s.fetchWord with
  | error r =>
    obtain ⟨a, ha, h1, h2⟩ := s.fetchWord_error r h
    exact .inl ⟨a, ha, h1, by unfold step; rw [h, h2]⟩
  | ok w =>
    have hf := (s.fetchWord_ok_iff w).1 h
    have hs := step_of_fetches hf
    cases hd : decodeWord s.cfg.addINN w with
    | none => rw [hd] at hs; exact .inr (.inl ⟨w, hf, hd, hs⟩)
    | some i => rw [hd] at hs; exact .inr (.inr ⟨w, i, hf, hd, hs⟩)

/-- A step with a next state executed the instruction at `pc`. -/
theorem step_next {s t : State} (h : step s = .next t) : ∃ i, s.AtInstr i ∧ exec i s = .next t := by
  rcases step_cases s with ⟨a, _, _, hs⟩ | ⟨w, _, _, hs⟩ | ⟨w, i, hf, hd, hs⟩
  · rw [hs] at h; cases h
  · rw [hs] at h; cases h
  · exact ⟨i, ⟨w, hf, hd⟩, hs ▸ h⟩

theorem step_of_atInstr {s : State} {i : Instr} (h : s.AtInstr i) : step s = exec i s := by
  obtain ⟨w, hf, hd⟩ := h
  rw [step_of_fetches hf, hd]

theorem State.atInstr_unique {s : State} {i j : Instr} (hi : s.AtInstr i) (hj : s.AtInstr j) : i = j := by
  obtain ⟨w, hf, hd⟩ := hi
  obtain ⟨w', hf', hd'⟩ := hj
  rw [State.Fetches_unique hf hf'] at hd
  exact Option.some.inj (hd.symm.trans hd')

/-- RET: a pop into `pc`, or nothing on an empty stack. -/
theorem execRet_cases (s : State) :
    (s.stack = [] ∧ execRet s = .next s) ∨
    (∃ top rest, s.stack = top :: rest ∧ execRet s = .next (s.dropTop.setPc top)) := by
  unfold execRet
  cases h : s.stack with
  | nil => exact .inl ⟨rfl, rfl⟩
  | cons top rest => exact .inr ⟨top, rest, rfl, rfl⟩

/-- CALL: StackOverflow on a full stack, else a push and a jump. -/
theorem execCall_cases (nnn : Addr12) (s : State) :
    (s.stackFull = true ∧ execCall nnn s = .fault (.stackOverflow (encode s.cfg.addINN (.call nnn)) s.pc)) ∨
    (s.stackFull = false ∧ execCall nnn s = .next ((s.push (s.pc + 2#16)).setPc (addrOperand nnn))) := by
  unfold execCall raiseFatal
  cases h : s.stackFull
  · exact .inr ⟨rfl, rfl⟩
  · exact .inl ⟨rfl, rfl⟩

/-- DRW: the rows are all in the store and go out as one event, or one of them refuses the step. -/
theorem execDrw_cases (x y : RegIdx) (n : Nibble) (s : State) :
    ((∀ a ∈ rowAddrs s.i n.toNat, a.toNat < s.cfg.memSize) ∧
      execDrw x y n s = .next (s.emit (.draw (s.reg x) (s.reg y)
        ((rowAddrs s.i n.toNat).map fun a => s.mem.read a.toNat))).advance) ∨
    (∃ a ∈ rowAddrs s.i n.toNat, ¬ a.toNat < s.cfg.memSize ∧ execDrw x y n s = .refused (.outsideStore a)) := by
  unfold execDrw countOperand
  cases h : s.memReadAll (rowAddrs s.i n.toNat) with
  | error r =>
    obtain ⟨a, ha, h1, h2⟩ := s.memReadAll_error _ r h
    exact .inr ⟨a, ha, h1, by rw [h2]⟩
  | ok rows =>
    obtain ⟨h1, h2⟩ := (s.memReadAll_ok_iff _ rows).1 h
    exact .inl ⟨h1, by rw [h2]⟩

/-! ## Faults and refusals of `exec` -/

/-- Only the halt word and a CALL on a full stack end in a fatal condition. -/
theorem exec_fault {i : Instr} {s : State} {f : Fault} (h : exec i s = .fault f) :
    (i = .halt0 ∧ f = .haltSignal s.pc) ∨
    (∃ nnn, i = .call nnn ∧ s.stackFull = true ∧ f = .stackOverflow (encode s.cfg.addINN (.call nnn)) s.pc) := by
  cases i with
  | ret dc => rcases execRet_cases s with ⟨_, e⟩ | ⟨_, _, _, e⟩ <;> rw [exec, e] at h <;> cases h
  | call nnn =>
    rcases execCall_cases nnn s with ⟨hf, e⟩ | ⟨_, e⟩ <;> rw [exec, e] at h <;> cases h
    exact .inr ⟨nnn, rfl, hf, rfl⟩
  | drw x y n => rcases execDrw_cases x y n s with ⟨_, e⟩ | ⟨_, _, _, e⟩ <;> rw [exec, e] at h <;> cases h
  | halt0 => cases h; exact .inl ⟨rfl, rfl⟩
  | _ => cases h

/-- Only DRW is refused, for a row outside the store. -/
theorem exec_refused {i : Instr} {s : State} {r : Refusal} (h : exec i s = .refused r) :
    ∃ x y n, i = .drw x y n ∧
      ∃ a ∈ rowAddrs s.i n.toNat, ¬ a.toNat < s.cfg.memSize ∧ r = .outsideStore a := by
  cases i with
  | ret dc => rcases execRet_cases s with ⟨_, e⟩ | ⟨_, _, _, e⟩ <;> rw [exec, e] at h <;> cases h
  | call nnn => rcases execCall_cases nnn s with ⟨_, e⟩ | ⟨_, e⟩ <;> rw [exec, e] at h <;> cases h
  | drw x y n =>
    rcases execDrw_cases x y n s with ⟨_, e⟩ | ⟨a, h1, h2, e⟩ <;> rw [exec, e] at h <;> cases h
    exact ⟨x, y, n, rfl, a, h1, h2, rfl⟩
  | halt0 => cases h
  | _ => cases h

/-! ## Runs of the host's machine -/

/-- One successful step of any machine, in front of `k` more. -/
theorem run_succ_of_next (M : Host.Core) {s t : M.State} (k : Nat) (h : M.step s = .next t) : M.run (k + 1) s = M.run k t := by
  rw [Host.Core.run, h]

/-- One successful step of the core, in front of `k` more. -/
theorem core_run_succ {s t : State} (k : Nat) (h : step s = .next t) :
    Host.Core.run Sys2Proof.core (k + 1) s = Host.Core.run Sys2Proof.core k t :=
  run_succ_of_next Sys2Proof.core k h

end Sys2Proof.Machine
end

