-- ==== Sys2Proof/Tests/Slice0.lean ====
section
/-! SUPPORT. The model's own tests. Expected values come from spec/: the words written out from the encodings of R50 and
R55, the vectors of spec/95_test_vectors.md (named at each test), and the worked examples of the rules. The last part
holds a witness for every statement with hypotheses. -/

namespace Sys2Proof.Tests

open Sys2Proof.Machine

/-- The reset state with some registers set. -/
def withRegs : List (RegIdx × Byte) → State
  | [] => State.reset
  | (r, b) :: rest => (withRegs rest).setReg r b

/-- A state whose next fetch reads the word `w`. -/
def placed (s : State) (w : Nat) : State := s.withFetchWord 16 w

/-- The next state, if there is one. -/
def nextOf : Host.Outcome State Fault Refusal → Option State
  | .next s => some s
  | _ => none

/-- The fatal condition, if there is one. -/
def faultOf : Host.Outcome State Fault Refusal → Option Fault
  | .fault f => some f
  | _ => none

/-- The refusal, if there is one. -/
def refusalOf : Host.Outcome State Fault Refusal → Option Refusal
  | .refused r => some r
  | _ => none

/-- After one step: a register, the flag register, and `pc`. -/
def regVfPc (r : RegIdx) (s : State) : Option (Byte × Byte × Word) :=
  (nextOf (step s)).map fun t => (t.reg r, t.reg 0xF#4, t.pc)

/-! ## WellFormed: an ill-formed term for each check -/

theorem test_wellFormed_refuses_the_halt_word : Instr.wellFormed .halt0 = false := by decide
theorem test_wellFormed_accepts_an_instruction : Instr.wellFormed (.ldImm 0xF#4 0xFF#8) = true := by decide
theorem test_canonical_refuses_a_dont_care_nibble : Instr.canonical (.seReg 1 2 0xF#4) = false := by decide
theorem test_config_refuses_an_empty_store :
    Config.wellFormed { Config.standard with memSize := 0 } = false := by decide
theorem test_config_refuses_a_store_beyond_16_bits :
    Config.wellFormed { Config.standard with memSize := 65537 } = false := by decide
theorem test_image_refused_when_too_long :
    imageFits { Config.standard with memSize := 0x202 } [0x60#8, 0x05#8, 0x70#8] = false := by decide

/-! ## Decoding: words written out from R50 and R55 (T-DEC, T-DISP) -/

theorem test_decode_cls : decodeTableWord 16 0x00E0 = some (.cls 0) := by decide
theorem test_decode_ret : decodeTableWord 16 0x00EE = some (.ret 0) := by decide
theorem test_decode_jp : decodeTableWord 16 0x1ABC = some (.jp 0xABC#12) := by decide
theorem test_decode_call : decodeTableWord 16 0x2204 = some (.call 0x204#12) := by decide
theorem test_decode_seImm : decodeTableWord 16 0x332A = some (.seImm 3 0x2A#8) := by decide
theorem test_decode_sneImm : decodeTableWord 16 0x432B = some (.sneImm 3 0x2B#8) := by decide
theorem test_decode_seReg : decodeTableWord 16 0x5AB7 = some (.seReg 0xA#4 0xB#4 7) := by decide
theorem test_decode_ldImm : decodeTableWord 16 0x6AFF = some (.ldImm 0xA#4 0xFF#8) := by decide
theorem test_decode_addImm : decodeTableWord 16 0x7203 = some (.addImm 2 0x03#8) := by decide
theorem test_decode_ldReg : decodeTableWord 16 0x8120 = some (.ldReg 1 2) := by decide
theorem test_decode_or : decodeTableWord 16 0x8121 = some (.or 1 2) := by decide
theorem test_decode_and : decodeTableWord 16 0x8122 = some (.and 1 2) := by decide
theorem test_decode_xor : decodeTableWord 16 0x8123 = some (.xor 1 2) := by decide
theorem test_decode_addReg : decodeTableWord 16 0x8AB4 = some (.addReg 0xA#4 0xB#4) := by decide
theorem test_decode_sub : decodeTableWord 16 0x8125 = some (.sub 1 2) := by decide
theorem test_decode_shr : decodeTableWord 16 0x83F6 = some (.shr 3 0xF#4) := by decide
theorem test_decode_subn : decodeTableWord 16 0x8127 = some (.subn 1 2) := by decide
theorem test_decode_shl : decodeTableWord 16 0x830E = some (.shl 3 0) := by decide
theorem test_decode_sneReg : decodeTableWord 16 0x912A = some (.sneReg 1 2 0xA#4) := by decide
theorem test_decode_ldI : decodeTableWord 16 0xA300 = some (.ldI 0x300#12) := by decide
theorem test_decode_jpV0 : decodeTableWord 16 0xB202 = some (.jpV0 0x202#12) := by decide
theorem test_decode_rnd : decodeTableWord 16 0xC30F = some (.rnd 3 0x0F#8) := by decide
theorem test_decode_drw : decodeTableWord 16 0xD123 = some (.drw 1 2 3) := by decide
theorem test_decode_addI : decodeTableWord 16 0xF51E = some (.addI 5) := by decide
theorem test_decode_halt0 : decodeTableWord 16 0x0000 = some .halt0 := by decide
theorem test_decode_unrecognised :
    [0x0001, 0x00E1, 0x0100, 0x0F00, 0x8128, 0x812F, 0xE09E, 0xEFFF, 0xF007, 0xF01F, 0xFFFF].map
      (decodeTableWord 16) = List.replicate 11 none := by decide
theorem test_decode_bytes_by_name :
    decodeBytes 0x1E#8 [0xE0#8, 0x9E#8] = .error (.unknownOpcode 0xE09E#16) ∧
    decodeBytes 0x1E#8 [0x12#8] = .error (.tooShort 1) ∧
    decodeBytes 0x1E#8 [0x12#8, 0x34#8, 0x56#8] = .ok (.jp 0x234#12, [0x56#8]) := ⟨rfl, rfl, rfl⟩

/-! ## Control flow (T-CF, T-SKIP, S2, T-FAULT) -/

theorem test_jp : (nextOf (step (placed .reset 0x1ABC))).map (·.pc) = some 0x0ABC#16 := by decide
theorem test_call_pushes_wrapped_pc :
    (nextOf (step (placed { State.reset with pc := 0xFFFE#16 } 0x2300))).map (fun t => (t.stack, t.pc)) =
      some ([0x0000#16], 0x0300#16) := by decide
theorem test_call_on_full_stack :
    faultOf (step (placed { State.reset with
      pc := 0x0404#16, stack := [0x0202#16], cfg := { Config.standard with stackDepth := some 1 } } 0x2400)) =
      some (.stackOverflow 0x2400#16 0x0404#16) := by decide
theorem test_ret_pops_last_pushed :
    (nextOf (step (placed { State.reset with pc := 0x0300#16, stack := [0x0250#16, 0x0202#16] } 0x00EE))).map
      (fun t => (t.stack, t.pc)) = some ([0x0202#16], 0x0250#16) := by decide
theorem test_ret_on_empty_stack :
    nextOf (step (placed .reset 0x00EE)) = some (placed .reset 0x00EE) := by decide
theorem test_seImm_skips_and_wraps :
    (nextOf (step (placed { withRegs [(3, 0x2A#8)] with pc := 0xFFFE#16 } 0x332A))).map (·.pc) = some 0x0002#16 := by decide
theorem test_seImm_does_not_skip : (nextOf (step (placed (withRegs [(3, 0x2A#8)]) 0x332B))).map (·.pc) = some 0x0202#16 := by
  decide
theorem test_sneImm_skips : (nextOf (step (placed (withRegs [(3, 0x2A#8)]) 0x432B))).map (·.pc) = some 0x0204#16 := by
  decide
theorem test_seReg_with_dont_care_skips :
    (nextOf (step (placed (withRegs [(1, 7), (2, 7)]) 0x512F))).map (·.pc) = some 0x0204#16 := by decide
theorem test_sneReg_skips : (nextOf (step (placed (withRegs [(1, 7), (2, 8)]) 0x9120))).map (·.pc) = some 0x0204#16 := by
  decide
theorem test_jpV0_is_not_masked :
    (nextOf (step (placed (withRegs [(0, 0xFF#8)]) 0xBFFF))).map (·.pc) = some 0x10FE#16 := by decide
theorem test_jpV0_uses_V0 :
    (nextOf (step (placed (withRegs [(0, 4), (2, 0xFF#8)]) 0xB202))).map (·.pc) = some 0x0206#16 := by decide

/-! ## Loads and the arithmetic-logic unit (T-LD, T-ALU, T-SH, T-VF) -/

theorem test_ldImm : regVfPc 0xA#4 (placed .reset 0x6AFF) = some (0xFF#8, 0x00#8, 0x0202#16) := by decide
theorem test_addImm_writes_no_flag :
    regVfPc 2 (placed (withRegs [(2, 0xFF#8), (0xF#4, 0x55#8)]) 0x7201) = some (0x00#8, 0x55#8, 0x0202#16) := by decide
theorem test_ldReg : regVfPc 1 (placed (withRegs [(2, 0x9C#8)]) 0x8120) = some (0x9C#8, 0x00#8, 0x0202#16) := by decide
theorem test_or : regVfPc 1 (placed (withRegs [(1, 0xF0#8), (2, 0x20#8), (0xF#4, 1)]) 0x8121) =
    some (0xF0#8, 0x01#8, 0x0202#16) := by decide
theorem test_and : regVfPc 1 (placed (withRegs [(1, 0xF0#8), (2, 0x20#8), (0xF#4, 1)]) 0x8122) =
    some (0x20#8, 0x01#8, 0x0202#16) := by decide
theorem test_xor : regVfPc 1 (placed (withRegs [(1, 0xF0#8), (2, 0x20#8), (0xF#4, 1)]) 0x8123) =
    some (0xD0#8, 0x01#8, 0x0202#16) := by decide
theorem test_addReg_carries : regVfPc 1 (placed (withRegs [(1, 0xF0#8), (2, 0x20#8)]) 0x8124) =
    some (0x10#8, 0x01#8, 0x0202#16) := by decide
theorem test_addReg_to_VF_keeps_carry : regVfPc 1 (placed (withRegs [(0xF#4, 0x01#8), (1, 0x02#8)]) 0x8F14) =
    some (0x02#8, 0x00#8, 0x0202#16) := by decide
theorem test_sub_unsigned_borrow : regVfPc 1 (placed (withRegs [(1, 0x00#8), (2, 0x80#8)]) 0x8125) =
    some (0x80#8, 0x00#8, 0x0202#16) := by decide
theorem test_sub_reads_old_VF : regVfPc 1 (placed (withRegs [(1, 0x05#8), (0xF#4, 0x01#8)]) 0x81F5) =
    some (0x04#8, 0x01#8, 0x0202#16) := by decide
theorem test_subn_is_reversed : regVfPc 1 (placed (withRegs [(1, 0xFF#8), (2, 0x01#8)]) 0x8127) =
    some (0x02#8, 0x00#8, 0x0202#16) := by decide
theorem test_subn_equal : regVfPc 1 (placed (withRegs [(1, 0x80#8), (2, 0x80#8)]) 0x8127) =
    some (0x00#8, 0x01#8, 0x0202#16) := by decide
theorem test_shr_ignores_y : regVfPc 3 (placed (withRegs [(3, 0x81#8), (0xA#4, 0x07#8)]) 0x83A6) =
    some (0x40#8, 0x01#8, 0x0202#16) := by decide
theorem test_shr_of_VF : regVfPc 3 (placed (withRegs [(0xF#4, 0x03#8)]) 0x8F06) = some (0x00#8, 0x01#8, 0x0202#16) := by
  decide
theorem test_shl_flag_is_0x80 : regVfPc 3 (placed (withRegs [(3, 0x81#8)]) 0x830E) = some (0x02#8, 0x80#8, 0x0202#16) := by
  decide
theorem test_shl_of_VF : regVfPc 3 (placed (withRegs [(0xF#4, 0x40#8)]) 0x8F0E) = some (0x00#8, 0x00#8, 0x0202#16) := by
  decide

/-! ## Index register and random number (T-IDX, T-RND) -/

theorem test_ldI :
    (nextOf (step (placed { State.reset with i := 0xFFFF#16 } 0xAFFF))).map (·.i) = some 0x0FFF#16 := by decide
theorem test_addI_is_not_masked :
    (nextOf (step (placed { withRegs [(1, 1)] with i := 0x0FFF#16 } 0xF11E))).map (·.i) = some 0x1000#16 := by decide
theorem test_addI_wraps_without_flag :
    (nextOf (step (placed { withRegs [(0xF#4, 0xFF#8)] with i := 0xFF80#16 } 0xFF1E))).map (fun t => (t.i, t.reg 0xF#4)) =
      some (0x007F#16, 0xFF#8) := by decide
theorem test_rnd_masks_the_supplied_byte :
    (nextOf (step (placed { State.reset with rand := ⟨[0xA7#8, 0x5C#8], 0⟩ } 0xC30F))).map
      (fun t => (t.reg 3, t.rand)) = some (0x07#8, ⟨[0x5C#8], 1⟩) := by decide
theorem test_rnd_of_mask_zero_draws :
    (nextOf (step (placed { State.reset with rand := ⟨[0xFF#8], 0⟩ } 0xC200))).map
      (fun t => (t.reg 2, t.rand.drawn)) = some (0x00#8, 1) := by decide

/-! ## Display (T-DSP) -/

theorem test_cls : (nextOf (step (placed .reset 0x00E0))).map (fun t => (t.events, t.pc)) =
    some ([.clear], 0x0202#16) := by decide
theorem test_drw_passes_rows :
    (nextOf (step (placed { withRegs [(0, 3), (1, 4), (0xF#4, 1)] with
      i := 0x020C#16, mem := [(0x20C, 0xF0#8), (0x20D, 0x90#8)] } 0xD012))).map
      (fun t => (t.events, t.reg 0xF#4, t.i, t.pc)) =
      some ([.draw 3 4 [0xF0#8, 0x90#8]], 0x01#8, 0x020C#16, 0x0202#16) := by decide
theorem test_drw_outside_the_store :
    refusalOf (step (placed { State.reset with
      i := 0x0FFF#16, cfg := { Config.standard with memSize := 0x1000 } } 0xD002)) =
      some (.outsideStore 0x1000#16) := by decide

/-! ## Fatal conditions and reset (S3, T-FAULT, T-RST) -/

theorem test_halt_word : faultOf (step { State.reset with pc := 0x0404#16 }) = some (.haltSignal 0x0404#16) := by decide
theorem test_unknown_opcode : faultOf (step (placed { State.reset with pc := 0x0300#16 } 0xE000)) =
    some (.unknownOpcode 0xE000#16 0x0300#16) := by decide
theorem test_reinit_keeps_memory :
    ({ State.reset with i := 0xFFFF#16, pc := 0x1234#16, stack := [1, 2, 3], mem := [(7, 9)] } : State).reinit =
      { State.reset with mem := [(7, 9)] } := by decide
theorem test_loader_places_the_image :
    (nextOf (loadImage [0x60#8, 0x05#8] .reset)).map (·.mem) = some [(0x200, 0x60#8), (0x201, 0x05#8)] := by decide
theorem test_fault_signals : stepSignals (placed .reset 0xE19E) =
    some { event := none, faultKind := 2#2, faultContext := some (0xE19E#16, 0x0200#16) } := by decide
theorem test_display_signals : (stepSignals (placed .reset 0x00E0)).map (·.event) = some (some .clear) := by decide
theorem test_write_of_the_unlisted_byte_removes : Memory.write [(3, 7), (5, 8)] 3 0x00#8 = [(5, 8)] := by decide

/-! ## Witnesses: a concrete state and operands that meet all the hypotheses of a statement together -/

/-- A next state found by evaluation. -/
theorem next_of_some {s : State} (h : (nextOf (step s)).isSome = true) : ∃ t, step s = .next t := by
  cases hs : step s with
  | next t => exact ⟨t, rfl⟩
  | fault f => rw [hs] at h; cases h
  | refused r => rw [hs] at h; cases h

/-- A step evaluated to a next state. -/
theorem step_next_of_eval {s t : State} (h : nextOf (step s) = some t) : step s = .next t := by
  cases hs : step s <;> rw [hs] at h <;> cases h
  rfl

/-- A step evaluated to a fatal condition. -/
theorem step_fault_of_eval {s : State} {f : Fault} (h : faultOf (step s) = some f) : step s = .fault f := by
  cases hs : step s <;> rw [hs] at h <;> cases h
  rfl

/-- A step evaluated to a refusal. -/
theorem step_refused_of_eval {s : State} {r : Refusal} (h : refusalOf (step s) = some r) : step s = .refused r := by
  cases hs : step s <;> rw [hs] at h <;> cases h
  rfl

/-- The fetch of a placed word, by evaluation. -/
theorem fetches_of_eval {s : State} {w : Word}
    (h : (decide (s.pc.toNat < s.cfg.memSize) && decide ((s.pc + 1#16).toNat < s.cfg.memSize) &&
      decide (w = joinBytes (s.mem.read s.pc.toNat) (s.mem.read (s.pc + 1#16).toNat))) = true) : s.Fetches w := by
  simp only [Bool.and_eq_true, decide_eq_true_eq] at h
  exact ⟨h.1.1, h.1.2, h.2⟩

/-- The reset state over a store of four bytes above the origin. -/
def smallStore : State := { State.reset with cfg := { Config.standard with memSize := 0x204 } }

/-- A state with a full one-entry stack. -/
def fullStack : State :=
  { State.reset with stack := [0x0202#16], cfg := { Config.standard with stackDepth := some 1 } }

theorem witness_StepKeepsInvariant : ∃ s t : State, s.Inv ∧ step s = .next t := by
  obtain ⟨t, ht⟩ := next_of_some (s := placed .reset 0x6005) (by decide)
  refine ⟨_, t, ⟨by decide, ⟨by decide, by decide⟩, by decide, ?_⟩, ht⟩
  intro d h
  cases h

theorem witness_FetchIsBigEndian : ∃ s : State, s.pc.toNat < s.cfg.memSize ∧ (s.pc + 1#16).toNat < s.cfg.memSize :=
  ⟨{ smallStore with pc := 0x0202#16 }, by decide, by decide⟩

theorem witness_StepExecutesTheDecodedInstruction : ∃ (s : State) (i : Instr), s.pc.toNat < s.cfg.memSize ∧
    (s.pc + 1#16).toNat < s.cfg.memSize ∧
    decodeBytes s.cfg.addINN [s.mem.read s.pc.toNat, s.mem.read (s.pc + 1#16).toNat] = .ok (i, []) :=
  ⟨placed { State.reset with pc := 0xFFFF#16 } 0x1ABC, .jp 0xABC#12, by decide, by decide, rfl⟩

theorem witness_HaltWordRaisesHaltSignal : ∃ (s : State) (w p : Word), s.Fetches w ∧ w = 0x0000#16 ∧ p = s.pc :=
  ⟨.reset, _, _, fetches_of_eval (by decide), rfl, rfl⟩

theorem witness_UnrecognisedWordRaisesUnknownOpcode : ∃ (s : State) (w v p : Word), s.Fetches w ∧
    Unrecognised s.cfg.addINN w ∧ v = w ∧ p = s.pc :=
  ⟨placed .reset 0xE000, 0xE000#16, _, _, fetches_of_eval (by decide), .inr (.inr (.inl rfl)), rfl, rfl⟩

theorem witness_EncodeOfDecodeIsTheWord : ∃ (p : Byte) (w : Word) (i : Instr), decodeWord p w = some i :=
  ⟨0x1E#8, 0x512F#16, .seReg 1 2 0xF#4, by decide⟩

theorem witness_OpcodeMapRowsDoNotOverlap : ∃ (p : Byte) (w : Word) (r q : OpcodeRow), r ∈ opcodeMap p ∧
    q ∈ opcodeMap p ∧ r.selects w = true ∧ q.selects w = true :=
  ⟨0x1E#8, 0x00E0#16, opcodeRow 0x1E#8 (.cls 0), opcodeRow 0x1E#8 (.cls 1), by decide, by decide, by decide, by decide⟩

theorem witness_DontCareBitsHaveNoEffect : ∃ (p : Byte) (w w' : Word) (i : Instr), decodeWord p w = some i ∧ w ≠ w' ∧
    w &&& ((opcodeRow p i).mask ||| (opcodeRow p i).operands) =
      w' &&& ((opcodeRow p i).mask ||| (opcodeRow p i).operands) :=
  ⟨0x1E#8, 0x5120#16, 0x512F#16, .seReg 1 2 0, by decide, by decide, by decide⟩

/-- A word of each mask and match of R50 that the statements about single instructions use. -/
theorem witness_Encoded :
    [(0x01E0, 0xF0FF, 0x00E0), (0x0FEE, 0xF0FF, 0x00EE), (0x1FFF, 0xF000, 0x1000), (0x2204, 0xF000, 0x2000),
     (0x3F01, 0xF000, 0x3000), (0x4300, 0xF000, 0x4000), (0x512F, 0xF000, 0x5000), (0x6AFF, 0xF000, 0x6000),
     (0x7F02, 0xF000, 0x7000), (0x8FF0, 0xF00F, 0x8000), (0x8121, 0xF00F, 0x8001), (0x8122, 0xF00F, 0x8002),
     (0x8123, 0xF00F, 0x8003), (0x8F14, 0xF00F, 0x8004), (0x8115, 0xF00F, 0x8005), (0x83F6, 0xF00F, 0x8006),
     (0x8F17, 0xF00F, 0x8007), (0x83FE, 0xF00F, 0x800E), (0x912A, 0xF000, 0x9000), (0xAFFF, 0xF000, 0xA000),
     (0xBFFF, 0xF000, 0xB000), (0xC200, 0xF000, 0xC000), (0xD00F, 0xF000, 0xD000)].all
      (fun (e : Word × Word × Word) => e.1 &&& e.2.1 == e.2.2) = true := by decide

theorem witness_AddToIndexWrapsAndWritesNoFlag : ∃ w w' : Word, fieldClass w = 0xF#4 ∧ fieldNN w = 0x1E#8 ∧
    fieldClass w' = 0xF#4 ∧ fieldNN w' ≠ 0x1E#8 := ⟨0xFF1E#16, 0xFF1F#16, by decide, by decide, by decide, by decide⟩

theorem witness_ReturnPopsTheTopEntryIntoPc : ∃ (s : State) (top : Word) (rest : List Word), s.stack = top :: rest :=
  ⟨fullStack, 0x0202#16, [], rfl⟩

theorem witness_ReturnOnEmptyStackChangesNothing : ∃ s : State, s.stack = [] := ⟨.reset, rfl⟩

theorem witness_CallPushesTheReturnAddressOrOverflows : ∃ s s' : State, s.cfg.stackDepth ≠ some s.stack.length ∧
    s'.cfg.stackDepth = some s'.stack.length := ⟨{ fullStack with stack := [] }, fullStack, by decide, by decide⟩

theorem witness_LoadsIntoOtherRegistersThanVF : ∃ x : RegIdx, x ≠ 0xF#4 := ⟨0xE#4, by decide⟩

theorem witness_RandomIsTheDrawnByteMasked : ∃ (s : State) (r : Byte) (later : List Byte),
    s.rand.supplied = r :: later := ⟨{ State.reset with rand := ⟨[0xA7#8], 0⟩ }, 0xA7#8, [], rfl⟩

/-- Fifteen rows that end at the last address of the store. -/
theorem witness_DrawEmitsTheSpriteRows : ∃ (n : Nibble) (s : State), n = 0xF#4 ∧
    ∀ k < n.toNat, (s.i.toNat + k) % 65536 < s.cfg.memSize :=
  ⟨0xF#4, { smallStore with i := 0x01F5#16 }, rfl, by decide⟩

theorem witness_DrawOutsideTheStoreIsRefused : ∃ (n : Nibble) (s : State) (k : Nat), k < n.toNat ∧
    s.cfg.memSize ≤ (s.i.toNat + k) % 65536 :=
  ⟨2, { smallStore with i := 0x0203#16 }, 1, by decide, by decide⟩

/-- The hypothesis of the whole-machine rules: StepNeverWritesMemory, StepChangesOnlyWhatItsInstructionWrites,
StepSetsPcByOneOfFiveUpdates, StackChangesOnlyByCallAndReturn, StepEmitsAtMostOneEvent and the last clause of
FaultSignalsReportTheFetchedWordAndPc. -/
theorem witness_step_answers_next : ∃ s t : State, step s = .next t :=
  ⟨placed .reset 0xD00F, next_of_some (by decide)⟩

theorem witness_OnlyFlagWritersAndNamedWritesChangeVF : ∃ s t : State, step s = .next t ∧ t.reg 0xF#4 ≠ s.reg 0xF#4 := by
  refine ⟨placed (withRegs [(1, 0xFF#8)]) 0x8114,
    (placed (withRegs [(1, 0xFF#8)]) 0x8114).writeFlagged 1 0xFE#8 0x01#8 |>.advance,
    step_next_of_eval (by decide), by decide⟩

theorem witness_FlagValuesAreZeroOneOrEighty : ∃ (s t u : State), exec (.addReg 1 2) s = .next t ∧
    exec (.shl 1 0) s = .next u := ⟨.reset, _, _, rfl, rfl⟩

theorem witness_EveryWordHasOneOutcome_halt : ∃ (s : State) (w : Word), s.cfg.memSize = 65536 ∧ s.Fetches w ∧
    w = 0x0000#16 := ⟨.reset, _, rfl, fetches_of_eval (by decide), rfl⟩

theorem witness_EveryWordHasOneOutcome_unknown : ∃ (s : State) (w : Word), s.cfg.memSize = 65536 ∧ s.Fetches w ∧
    Unrecognised s.cfg.addINN w :=
  ⟨placed .reset 0x8128, 0x8128#16, rfl, fetches_of_eval (by decide), .inr (.inl ⟨by decide, by decide⟩)⟩

theorem witness_EveryWordHasOneOutcome_overflow : ∃ (s : State) (w : Word), s.cfg.memSize = 65536 ∧ s.Fetches w ∧
    fieldClass w = 0x2#4 ∧ s.cfg.stackDepth = some s.stack.length :=
  ⟨placed fullStack 0x2FFF, 0x2FFF#16, rfl, fetches_of_eval (by decide), by decide, by decide⟩

theorem witness_EveryWordHasOneOutcome_next : ∃ (s : State) (w : Word), s.cfg.memSize = 65536 ∧ s.Fetches w ∧
    w ≠ 0x0000#16 ∧ ¬ Unrecognised s.cfg.addINN w ∧
    ¬ (fieldClass w = 0x2#4 ∧ s.cfg.stackDepth = some s.stack.length) := by
  refine ⟨placed .reset 0x2FFF, 0x2FFF#16, rfl, fetches_of_eval (by decide), by decide, ?_, ?_⟩
  · simp [Unrecognised, fieldClass]
  · rintro ⟨-, h⟩; cases h

theorem witness_StepIsRefusedExactlyOutsideTheStore : ∃ (s : State) (r : Refusal), step s = .refused r ∧
    ∃ a ∈ stepReads s, s.cfg.memSize ≤ a.toNat :=
  ⟨{ smallStore with pc := 0x0203#16 }, .outsideStore 0x0204#16, step_refused_of_eval (by decide),
    0x0204#16, by decide, by decide⟩

/-- Two sprite rows at 0x300; the other memory differs just behind them. -/
def drawTwoRows : State :=
  { State.reset with i := 0x0300#16, mem := [(0x200, 0xD0#8), (0x201, 0x02#8)] }

theorem witness_StepDependsOnlyOnTheBytesItReads : ∃ (s : State) (m : Memory), m ≠ s.mem ∧
    ∀ a ∈ stepReads s, m.read a.toNat = s.mem.read a.toNat := by
  refine ⟨drawTwoRows, [(0x200, 0xD0#8), (0x201, 0x02#8), (0x302, 0xFF#8)], by decide, ?_⟩
  have reads : stepReads drawTwoRows = [0x0200#16, 0x0201#16, 0x0300#16, 0x0301#16] := by decide
  rw [reads]
  simp only [List.forall_mem_cons]
  exact ⟨by decide, by decide, by decide, by decide, by simp⟩

theorem witness_StepReadsTwoBytesAndTheSpriteRows : ∃ (s : State) (x y : RegIdx) (n : Nibble), s.AtInstr (.drw x y n) :=
  ⟨placed .reset 0xD00F, 0, 0, 0xF#4, 0xD00F#16, fetches_of_eval (by decide), by decide⟩

theorem witness_StepReadsTwoBytesOnly : ∃ s : State, ∀ x y n, ¬ s.AtInstr (.drw x y n) := by
  refine ⟨.reset, fun x y n h => ?_⟩
  have e := State.atInstr_unique h (j := .halt0) ⟨0x0000#16, fetches_of_eval (by decide), by decide⟩
  cases e

theorem witness_EmptyReturnRunsForEver : ∃ (s : State) (dc : Nibble), s.AtInstr (.ret dc) ∧ s.stack = [] :=
  ⟨placed .reset 0x00EE, 0, ⟨0x00EE#16, fetches_of_eval (by decide), by decide⟩, rfl⟩

theorem witness_JumpToItselfRunsForEver : ∃ (s : State) (nnn : Addr12), s.AtInstr (.jp nnn) ∧ nnn.toNat = s.pc.toNat :=
  ⟨placed { State.reset with pc := 0x0ABD#16 } 0x1ABD, 0xABD#12, ⟨0x1ABD#16, fetches_of_eval (by decide), by decide⟩,
    by decide⟩

theorem witness_FatalConditionKeepsStateAndRepeats : ∃ (s : State) (f : Fault), step s = .fault f :=
  ⟨.reset, .haltSignal 0x0200#16, step_fault_of_eval (by decide)⟩

theorem witness_FaultSignalsReportTheFetchedWordAndPc : ∃ (s : State) (w : Word) (f : Fault), s.Fetches w ∧
    step s = .fault f ∧ f.kind = 3#2 :=
  ⟨placed fullStack 0x2400, 0x2400#16, .stackOverflow 0x2400#16 0x0200#16, fetches_of_eval (by decide),
    step_fault_of_eval (by decide), rfl⟩

/-- One step of a run above the depth 1: the CALL of `placed fullStack`, with room for a second entry. -/
def callAtDepthOne : State := placed { fullStack with cfg := Config.standard } 0x2400

theorem witness_ReturnAddressesBelowStayUntouched : ∃ (d k : Nat) (s t : State),
    Run (fun u => d ≤ u.stack.length) k s t ∧ 0 < d ∧ 0 < k :=
  ⟨1, 1, callAtDepthOne, (callAtDepthOne.push 0x0202#16).setPc 0x0400#16,
    .more (by decide) (step_next_of_eval (by decide)) (.done (by decide)), by decide, by decide⟩

/-- CALL 0x204 at 0x200, RET at 0x204 (S2 of spec/95_test_vectors.md). -/
def callThenReturn : State :=
  { State.reset with mem := [(0x200, 0x22#8), (0x201, 0x04#8), (0x205, 0xEE#8)] }

theorem witness_BalancedCallReturnsAfterTheCall : ∃ (s s1 s2 : State) (nnn : Addr12) (dc : Nibble) (k : Nat),
    s.AtInstr (.call nnn) ∧ step s = .next s1 ∧ Run (fun u => s1.stack.length ≤ u.stack.length) k s1 s2 ∧
    s2.stack.length = s1.stack.length ∧ s2.AtInstr (.ret dc) :=
  ⟨callThenReturn, { callThenReturn with pc := 0x0204#16, stack := [0x0202#16] },
    { callThenReturn with pc := 0x0204#16, stack := [0x0202#16] }, 0x204#12, 0, 0,
    ⟨0x2204#16, fetches_of_eval (by decide), by decide⟩, step_next_of_eval (by decide), .done (by decide), rfl,
    ⟨0x00EE#16, fetches_of_eval (by decide), by decide⟩⟩

/-- An image that fills the store to its last byte. -/
theorem witness_LoaderPlacesTheImageAtTheOrigin : ∃ (image : List Byte) (s : State), s.mem.wf ∧
    0x200 + image.length ≤ s.cfg.memSize ∧ image.length = 4 :=
  ⟨[0x60#8, 0x05#8, 0x00#8, 0x00#8], smallStore, by decide, by decide, rfl⟩

theorem witness_PlacedWordIsTheNextFetched : ∃ (s : State) (n : Nat), s.mem.wf ∧ n < 65536 :=
  ⟨placed .reset 0x6005, 0xFFFF, by decide, by decide⟩

theorem witness_CanonicalMemoriesWithEqualBytesAreEqual : ∃ m m' : Memory, m.wf ∧ m'.wf ∧
    ∀ a, m.read a = m'.read a :=
  ⟨Memory.write [(3, 7)] 5 8, [(3, 7), (5, 8)], by decide, by decide, fun _ => rfl⟩

end Sys2Proof.Tests
end

namespace Sys2Proof.Machine

/-! ## Initialisation (spec/10_state.md R24, spec/70_reset_and_hazards.md R131) -/

/-- R24: the core's four pieces of state after reset. -/
theorem State.reset_core :
    (∀ r, State.reset.reg r = 0x00#8) ∧ State.reset.i = 0x0000#16 ∧ State.reset.pc = 0x0200#16 ∧
      State.reset.stack = [] :=
  ⟨State.reg_reset, rfl, rfl, rfl⟩

/-- R24 on a running machine: the core's four pieces of state after re-initialisation. -/
theorem State.reinit_core (s : State) :
    (∀ r, s.reinit.reg r = 0x00#8) ∧ s.reinit.i = 0x0000#16 ∧ s.reinit.pc = 0x0200#16 ∧ s.reinit.stack = [] :=
  ⟨s.reg_reinit, s.reinit_i, s.reinit_pc, s.reinit_stack⟩

/-- R131, the frame: re-initialisation reaches nothing outside the core. -/
theorem State.reinit_frame (s : State) :
    (∀ a, s.reinit.mem.read a = s.mem.read a) ∧ s.reinit.rand = s.rand ∧ s.reinit.events = s.events ∧
      s.reinit.cfg = s.cfg :=
  ⟨fun a => congrArg (Memory.read · a) s.reinit_mem, s.reinit_rand, s.reinit_events, s.reinit_cfg⟩

/-- Settles O1: the values at reset and after re-initialisation, and the frame of re-initialisation. -/
theorem initialisationZeroesTheCoreOnly : Obligations.InitialisationZeroesTheCoreOnly := by
  unfold Obligations.InitialisationZeroesTheCoreOnly
  refine ⟨State.reset_core, fun s => ?_⟩
  obtain ⟨hreg, hi, hpc, hstack⟩ := s.reinit_core
  exact ⟨hreg, hi, hpc, hstack, s.reinit_frame⟩

end Sys2Proof.Machine

namespace Sys2Proof

/-! ## The byte order of the fetch (spec/20_memory.md R34) -/

/-- The two halves of a joined word do not overlap, so its bitwise or is the sum 256 · high + low. -/
theorem joinBytes_toNat (hi lo : Byte) : (joinBytes hi lo).toNat = 256 * hi.toNat + lo.toNat := by
  have hhi : hi.toNat < 2 ^ 8 := hi.isLt
  have hlo : lo.toNat < 2 ^ 8 := lo.isLt
  have hshift : hi.toNat <<< 8 < 2 ^ 16 := by rw [Nat.shiftLeft_eq]; omega
  calc (joinBytes hi lo).toNat
      = hi.toNat <<< 8 ||| lo.toNat := by
        simp only [joinBytes, BitVec.toNat_or, BitVec.toNat_shiftLeft, BitVec.toNat_setWidth,
          Nat.mod_eq_of_lt (hhi.trans (by decide : 2 ^ 8 < 2 ^ 16)),
          Nat.mod_eq_of_lt (hlo.trans (by decide : 2 ^ 8 < 2 ^ 16)), Nat.mod_eq_of_lt hshift]
    _ = hi.toNat <<< 8 + lo.toNat := (Nat.shiftLeft_add_eq_or_of_lt hlo _).symm
    _ = 256 * hi.toNat + lo.toNat := by rw [Nat.shiftLeft_eq, Nat.mul_comm]

end Sys2Proof

namespace Sys2Proof.Machine

/-- With both addresses in the store the fetch joins their bytes, the byte at `pc` first. -/
theorem State.fetchWord_of_inStore {s : State} (hpc : s.pc.toNat < s.cfg.memSize)
    (hpc1 : (s.pc + 1#16).toNat < s.cfg.memSize) :
    s.fetchWord = .ok (joinBytes (s.mem.read s.pc.toNat) (s.mem.read (s.pc + 1#16).toNat)) :=
  (s.fetchWord_ok_iff _).2 ⟨hpc, hpc1, rfl⟩

/-- Settles O4: the fetch joins the two bytes, and the value of the joined word is the big-endian one. -/
theorem fetchIsBigEndian : Obligations.FetchIsBigEndian := by
  unfold Obligations.FetchIsBigEndian
  intro s hpc hpc1
  exact ⟨_, State.fetchWord_of_inStore hpc hpc1, joinBytes_toNat _ _⟩

end Sys2Proof.Machine

namespace Sys2Proof

/-! ## The fields as numbers (spec/30_encoding.md R46, R63)

One value per field: the word shifted down to the field's lowest bit, modulo two to the field's width. -/

section FieldValues
variable (w : Word)

theorem fieldClass_toNat : (fieldClass w).toNat = w.toNat / 4096 := by
  have hw : w.toNat < 2 ^ 16 := w.isLt
  have hval : (fieldClass w).toNat = w.toNat / 4096 % 16 := by
    simp [fieldClass, BitVec.extractLsb'_toNat, Nat.shiftRight_eq_div_pow]
  omega

theorem fieldX_toNat : (fieldX w).toNat = w.toNat / 256 % 16 := by
  simp [fieldX, BitVec.extractLsb'_toNat, Nat.shiftRight_eq_div_pow]

theorem fieldY_toNat : (fieldY w).toNat = w.toNat / 16 % 16 := by
  simp [fieldY, BitVec.extractLsb'_toNat, Nat.shiftRight_eq_div_pow]

theorem fieldN_toNat : (fieldN w).toNat = w.toNat % 16 := by
  simp [fieldN, BitVec.extractLsb'_toNat]

theorem fieldNN_toNat : (fieldNN w).toNat = w.toNat % 256 := by
  simp [fieldNN, BitVec.extractLsb'_toNat]

theorem fieldNNN_toNat : (fieldNNN w).toNat = w.toNat % 4096 := by
  simp [fieldNNN, BitVec.extractLsb'_toNat]

/-- R46: nn = {y, n}. -/
theorem fieldNN_toNat_eq_y_n : (fieldNN w).toNat = 16 * (fieldY w).toNat + (fieldN w).toNat := by
  rw [fieldNN_toNat, fieldY_toNat, fieldN_toNat]
  omega

/-- R46: nnn = {x, nn}. -/
theorem fieldNNN_toNat_eq_x_nn : (fieldNNN w).toNat = 256 * (fieldX w).toNat + (fieldNN w).toNat := by
  rw [fieldNNN_toNat, fieldX_toNat, fieldNN_toNat]
  omega

end FieldValues

/-! ## The fields of the two fetched bytes (spec/40_step_fetch_decode.md R63) -/

section FieldsOfBytes
variable (hi lo : Byte)

theorem fieldClass_joinBytes_toNat : (fieldClass (joinBytes hi lo)).toNat = hi.toNat / 16 := by
  have hlo : lo.toNat < 2 ^ 8 := lo.isLt
  rw [fieldClass_toNat, joinBytes_toNat]
  omega

theorem fieldX_joinBytes_toNat : (fieldX (joinBytes hi lo)).toNat = hi.toNat % 16 := by
  have hlo : lo.toNat < 2 ^ 8 := lo.isLt
  rw [fieldX_toNat, joinBytes_toNat]
  omega

theorem fieldY_joinBytes_toNat : (fieldY (joinBytes hi lo)).toNat = lo.toNat / 16 := by
  have hlo : lo.toNat < 2 ^ 8 := lo.isLt
  rw [fieldY_toNat, joinBytes_toNat]
  omega

theorem fieldN_joinBytes_toNat : (fieldN (joinBytes hi lo)).toNat = lo.toNat % 16 := by
  rw [fieldN_toNat, joinBytes_toNat]
  omega

/-- The field nn is the byte at the higher address, as `lowByte` is. -/
theorem fieldNN_joinBytes : fieldNN (joinBytes hi lo) = lo :=
  lowByte_joinBytes hi lo

theorem fieldNNN_joinBytes_toNat :
    (fieldNNN (joinBytes hi lo)).toNat = 256 * (hi.toNat % 16) + lo.toNat := by
  rw [fieldNNN_toNat_eq_x_nn, fieldX_joinBytes_toNat, fieldNN_joinBytes]

end FieldsOfBytes

/-- Settles O9: one value lemma per field, of the fetched bytes and of the word, and the two overlaps. -/
theorem fieldsAreContiguousBitExtractions : Obligations.FieldsAreContiguousBitExtractions := by
  unfold Obligations.FieldsAreContiguousBitExtractions
  refine ⟨fun hi lo => ?_, fun w => ?_⟩
  · exact ⟨fieldClass_joinBytes_toNat hi lo, fieldX_joinBytes_toNat hi lo, fieldY_joinBytes_toNat hi lo,
      fieldN_joinBytes_toNat hi lo, fieldNN_joinBytes hi lo, fieldNNN_joinBytes_toNat hi lo⟩
  · exact ⟨fieldClass_toNat w, fieldX_toNat w, fieldY_toNat w, fieldN_toNat w, fieldNN_toNat w,
      fieldNNN_toNat w, fieldNN_toNat_eq_y_n w, fieldNNN_toNat_eq_x_nn w⟩

end Sys2Proof

namespace Sys2Proof

/-! ## The halt word in the decoder (spec/40_step_fetch_decode.md R62)

No arm of the decision tree of R64 answers `halt0`: the word 0x0000 is the only way to it. -/

theorem decodeClass0_ne_halt0 (w : Word) : decodeClass0 w ≠ some .halt0 := by
  unfold decodeClass0
  split <;> simp

theorem decodeClass8_ne_halt0 (w : Word) : decodeClass8 w ≠ some .halt0 := by
  unfold decodeClass8
  split <;> simp

theorem decodeClassF_ne_halt0 (addINN : Byte) (w : Word) : decodeClassF addINN w ≠ some .halt0 := by
  unfold decodeClassF
  split <;> simp

theorem decodeTree_ne_halt0 (addINN : Byte) (w : Word) : decodeTree addINN w ≠ some .halt0 := by
  unfold decodeTree
  split <;> simp [decodeClass0_ne_halt0, decodeClass8_ne_halt0, decodeClassF_ne_halt0]

theorem decodeWord_eq_halt0_iff (addINN : Byte) (w : Word) : decodeWord addINN w = some .halt0 ↔ w = 0x0000#16 := by
  constructor
  · intro h
    by_contra hw
    rw [decodeWord_of_ne_zero addINN hw] at h
    exact decodeTree_ne_halt0 addINN w h
  · rintro rfl
    exact decodeWord_zero addINN

end Sys2Proof

namespace Sys2Proof.Machine

/-! ## Steps that end in a fatal condition (spec/40_step_fetch_decode.md R62, R64) -/

/-- The dispatch of the halt word, and its meaning. -/
theorem exec_halt0 (s : State) : exec .halt0 s = .fault (.haltSignal s.pc) := rfl

theorem State.atInstr_iff_of_fetches {s : State} {w : Word} (h : s.Fetches w) (i : Instr) :
    s.AtInstr i ↔ decodeWord s.cfg.addINN w = some i := by
  constructor
  · rintro ⟨v, hv, hd⟩
    rwa [State.Fetches_unique h hv]
  · exact fun hd => ⟨w, h, hd⟩

/-- A step with a fatal condition fetched an unrecognised word or executed the instruction at `pc`. -/
theorem step_fault {s : State} {f : Fault} (h : step s = .fault f) :
    (∃ w, s.Fetches w ∧ decodeWord s.cfg.addINN w = none ∧ f = .unknownOpcode w s.pc) ∨
    (∃ i, s.AtInstr i ∧ exec i s = .fault f) := by
  rcases step_cases s with ⟨a, _, _, hs⟩ | ⟨w, hf, hd, hs⟩ | ⟨w, i, hf, hd, hs⟩
  · rw [hs] at h; cases h
  · rw [hs] at h; cases h
    exact .inl ⟨w, hf, hd, rfl⟩
  · exact .inr ⟨i, ⟨w, hf, hd⟩, hs ▸ h⟩

/-- HaltSignal comes from the halt word at `pc` alone: an unrecognised word and a CALL on a full stack end in other
fatal conditions. -/
theorem step_haltSignal_iff (s : State) (p : Word) :
    step s = .fault (.haltSignal p) ↔ s.AtInstr .halt0 ∧ p = s.pc := by
  constructor
  · intro h
    rcases step_fault h with ⟨_, _, _, hf⟩ | ⟨i, hi, he⟩
    · cases hf
    · rcases exec_fault he with ⟨rfl, hf⟩ | ⟨_, _, _, hf⟩
      · cases hf
        exact ⟨hi, rfl⟩
      · cases hf
  · rintro ⟨hi, rfl⟩
    rw [step_of_atInstr hi, exec_halt0]

/-- Settles O6: the decoder's only way to the halt word, its meaning, and the steps that end with HaltSignal. -/
theorem haltWordRaisesHaltSignal : Obligations.HaltWordRaisesHaltSignal := by
  unfold Obligations.HaltWordRaisesHaltSignal
  refine ⟨decodeWord_eq_halt0_iff, exec_halt0, fun s w p hw => ?_⟩
  rw [step_haltSignal_iff, State.atInstr_iff_of_fetches hw, decodeWord_eq_halt0_iff]

end Sys2Proof.Machine

namespace Sys2Proof.Machine

/-! ## The frame of a `pc` update (spec/10_state.md R14) -/

theorem FrameBut.refl (regs : List RegIdx) (parts : List Part) (s : State) : FrameBut regs parts s s where
  registers _ _ := rfl
  index _ := rfl
  stack _ := rfl
  random _ := rfl
  display _ := rfl
  memory _ := rfl
  parameters := rfl

/-- `pc` is in no frame, so an update of it keeps every frame. -/
theorem FrameBut.setPc {regs : List RegIdx} {parts : List Part} {s t : State} (h : FrameBut regs parts s t) (a : Word) :
    FrameBut regs parts s (t.setPc a) where
  registers r hr := (t.reg_setPc a r).trans (h.registers r hr)
  index hp := (t.setPc_i a).trans (h.index hp)
  stack hp := (t.setPc_stack a).trans (h.stack hp)
  random hp := (t.setPc_rand a).trans (h.random hp)
  display hp := (t.setPc_events a).trans (h.display hp)
  memory b := (congrArg (Memory.read · b) (t.setPc_mem a)).trans (h.memory b)
  parameters := (t.setPc_cfg a).trans h.parameters

theorem State.setPc_frame (s : State) (a : Word) : FrameBut [] [] s (s.setPc a) :=
  (FrameBut.refl [] [] s).setPc a

/-! ## Rows that take a whole class (spec/30_encoding.md R50, R64) -/

/-- A row with mask 0xF000, in a class other than 0x0, is the arm of the decision tree for that class. -/
theorem encoded_of_decodeTree {value : Word} {c : Nibble} {f : Word → Instr} (hvalue : fieldClass value = c)
    (hc : c ≠ 0x0#4) (harm : ∀ addINN w, fieldClass w = c → decodeTree addINN w = some (f w)) :
    Encoded 0xF000#16 value f := by
  intro addINN w hw
  have hclass : fieldClass w = c := (fieldClass_of_maskF000 hw).trans hvalue
  rw [decodeWord_of_fieldClass addINN hclass hc, harm addINN w hclass]

theorem encoded_jp : Encoded 0xF000#16 0x1000#16 (fun w => .jp (fieldNNN w)) :=
  encoded_of_decodeTree (c := 0x1#4) (by decide) (by decide) fun _ _ h => by simp only [decodeTree, h]

theorem encoded_seImm : Encoded 0xF000#16 0x3000#16 (fun w => .seImm (fieldX w) (fieldNN w)) :=
  encoded_of_decodeTree (c := 0x3#4) (by decide) (by decide) fun _ _ h => by simp only [decodeTree, h]

theorem encoded_sneImm : Encoded 0xF000#16 0x4000#16 (fun w => .sneImm (fieldX w) (fieldNN w)) :=
  encoded_of_decodeTree (c := 0x4#4) (by decide) (by decide) fun _ _ h => by simp only [decodeTree, h]

theorem encoded_seReg : Encoded 0xF000#16 0x5000#16 (fun w => .seReg (fieldX w) (fieldY w) (fieldN w)) :=
  encoded_of_decodeTree (c := 0x5#4) (by decide) (by decide) fun _ _ h => by simp only [decodeTree, h]

theorem encoded_sneReg : Encoded 0xF000#16 0x9000#16 (fun w => .sneReg (fieldX w) (fieldY w) (fieldN w)) :=
  encoded_of_decodeTree (c := 0x9#4) (by decide) (by decide) fun _ _ h => by simp only [decodeTree, h]

/-! ## JP (spec/41_control_flow.md R72) -/

/-- The dispatch of JP, and its meaning. -/
theorem exec_jp (nnn : Addr12) (s : State) : exec (.jp nnn) s = .next (s.setPc (addrOperand nnn)) := rfl

/-- The 12-bit address is widened with zeros: its value stays. -/
@[simp] theorem addrOperand_toNat (nnn : Addr12) : (addrOperand nnn).toNat = nnn.toNat := by
  have hnnn : nnn.toNat < 2 ^ 12 := nnn.isLt
  rw [addrOperand, BitVec.toNat_setWidth, Nat.mod_eq_of_lt (by omega)]

/-- Settles O18: JP is the row of class 0x1, and its meaning is one `pc` update. -/
theorem jumpSetsPcToTheAddress : Obligations.JumpSetsPcToTheAddress := by
  unfold Obligations.JumpSetsPcToTheAddress
  exact ⟨encoded_jp, fun nnn s => ⟨_, exec_jp nnn s, addrOperand_toNat nnn, s.setPc_frame _⟩⟩

/-! ## The four skips (spec/41_control_flow.md R70, R74 to R77) -/

section Skips
variable (x y : RegIdx) (nn : Byte) (dc : Nibble) (s : State)

/-- The dispatch of SE_IMM, and its meaning. -/
theorem exec_seImm : exec (.seImm x nn) s = .next (s.skipWhen (s.reg x == nn)) := rfl

/-- The dispatch of SNE_IMM, and its meaning. -/
theorem exec_sneImm : exec (.sneImm x nn) s = .next (s.skipWhen (s.reg x != nn)) := rfl

/-- The dispatch of SE_REG, and its meaning; the don't-care nibble is not read. -/
theorem exec_seReg : exec (.seReg x y dc) s = .next (s.skipWhen (s.reg x == s.reg y)) := rfl

/-- The dispatch of SNE_REG, and its meaning; the don't-care nibble is not read. -/
theorem exec_sneReg : exec (.sneReg x y dc) s = .next (s.skipWhen (s.reg x != s.reg y)) := rfl

end Skips

/-- A skip is a `pc` update, taken or not. -/
theorem State.skipWhen_frame (s : State) (holds : Bool) : FrameBut [] [] s (s.skipWhen holds) :=
  s.setPc_frame _

/-- R70 for a skip when two bytes are equal, as unsigned numbers. -/
theorem State.skipWhen_beq_pc (s : State) (a b : Byte) :
    (s.skipWhen (a == b)).pc = if a.toNat = b.toNat then s.pc + 4#16 else s.pc + 2#16 := by
  simp only [State.skipWhen_pc, beq_iff_eq, BitVec.toNat_inj]

/-- R70 for a skip when two bytes differ, as unsigned numbers. -/
theorem State.skipWhen_bne_pc (s : State) (a b : Byte) :
    (s.skipWhen (a != b)).pc = if a.toNat ≠ b.toNat then s.pc + 4#16 else s.pc + 2#16 := by
  simp only [State.skipWhen_pc, bne_iff_ne, ne_eq, BitVec.toNat_inj]

/-- Settles O20: each skip is the row of its class, and its meaning is `skipWhen` of its comparison. -/
theorem skipsAdvanceByFourOrTwo : Obligations.SkipsAdvanceByFourOrTwo := by
  unfold Obligations.SkipsAdvanceByFourOrTwo
  refine ⟨⟨encoded_seImm, encoded_sneImm, encoded_seReg, encoded_sneReg⟩, fun x nn s => ⟨?_, ?_⟩,
    fun x y dc s => ⟨?_, ?_⟩⟩
  · exact ⟨_, exec_seImm x nn s, s.skipWhen_frame _, s.skipWhen_beq_pc _ _⟩
  · exact ⟨_, exec_sneImm x nn s, s.skipWhen_frame _, s.skipWhen_bne_pc _ _⟩
  · exact ⟨_, exec_seReg x y dc s, s.skipWhen_frame _, s.skipWhen_beq_pc _ _⟩
  · exact ⟨_, exec_sneReg x y dc s, s.skipWhen_frame _, s.skipWhen_bne_pc _ _⟩

end Sys2Proof.Machine

namespace Sys2Proof.Machine

/-! ## The frame of a register write (spec/10_state.md R10 to R12, spec/42_load_alu.md R80) -/

/-- A write to a register the frame names keeps the frame. -/
theorem FrameBut.setReg {regs : List RegIdx} {parts : List Part} {s t : State} {r : RegIdx}
    (h : FrameBut regs parts s t) (hr : r ∈ regs) (b : Byte) : FrameBut regs parts s (t.setReg r b) where
  registers q hq := (t.reg_setReg_other b (ne_of_mem_of_not_mem hr hq).symm).trans (h.registers q hq)
  index hp := (t.setReg_i r b).trans (h.index hp)
  stack hp := (t.setReg_stack r b).trans (h.stack hp)
  random hp := (t.setReg_rand r b).trans (h.random hp)
  display hp := (t.setReg_events r b).trans (h.display hp)
  memory a := (congrArg (Memory.read · a) (t.setReg_mem r b)).trans (h.memory a)
  parameters := (t.setReg_cfg r b).trans h.parameters

section RegisterWrites
variable (s : State) (x : RegIdx) (b flag : Byte)

/-- An instruction without a flag: one register write, then the next `pc`. -/
theorem State.setReg_advance_frame : FrameBut [x] [] s (s.setReg x b).advance :=
  ((FrameBut.refl [x] [] s).setReg (List.mem_cons_self ..) b).setPc _

/-- The destination holds the result after the step, the flag register included as a destination. -/
theorem State.reg_setReg_advance : (s.setReg x b).advance.reg x = b :=
  s.reg_setReg_same x b

/-- An instruction with a flag: the result, then the flag, then the next `pc`. -/
theorem State.writeFlagged_advance_frame : FrameBut [x, flagReg] [] s (s.writeFlagged x b flag).advance :=
  (((FrameBut.refl [x, flagReg] [] s).setReg (by simp) b).setReg (by simp) flag).setPc _

end RegisterWrites

/-! ## The rows of the loads, the additions and the logic instructions (spec/30_encoding.md R50, R64) -/

/-- A row with mask 0xF00F in class 0x8 is the arm of `decodeClass8` for its selector. -/
theorem encoded_of_decodeClass8 {value : Word} {n : Nibble} {f : Word → Instr} (hclass : fieldClass value = 0x8#4)
    (hn : fieldN value = n) (harm : ∀ w, fieldN w = n → decodeClass8 w = some (f w)) : Encoded 0xF00F#16 value f := by
  intro addINN w hw
  obtain ⟨hwc, hwn⟩ := fields_of_maskF00F hw
  have hw8 : fieldClass w = 0x8#4 := hwc.trans hclass
  rw [decodeWord_of_fieldClass addINN hw8 (by decide), ← harm w (hwn.trans hn)]
  simp only [decodeTree, hw8]

theorem encoded_ldImm : Encoded 0xF000#16 0x6000#16 (fun w => .ldImm (fieldX w) (fieldNN w)) :=
  encoded_of_decodeTree (c := 0x6#4) (by decide) (by decide) fun _ _ h => by simp only [decodeTree, h]

theorem encoded_addImm : Encoded 0xF000#16 0x7000#16 (fun w => .addImm (fieldX w) (fieldNN w)) :=
  encoded_of_decodeTree (c := 0x7#4) (by decide) (by decide) fun _ _ h => by simp only [decodeTree, h]

theorem encoded_ldReg : Encoded 0xF00F#16 0x8000#16 (fun w => .ldReg (fieldX w) (fieldY w)) :=
  encoded_of_decodeClass8 (n := 0x0#4) (by decide) (by decide) fun _ h => by simp only [decodeClass8, h]

theorem encoded_or : Encoded 0xF00F#16 0x8001#16 (fun w => .or (fieldX w) (fieldY w)) :=
  encoded_of_decodeClass8 (n := 0x1#4) (by decide) (by decide) fun _ h => by simp only [decodeClass8, h]

theorem encoded_and : Encoded 0xF00F#16 0x8002#16 (fun w => .and (fieldX w) (fieldY w)) :=
  encoded_of_decodeClass8 (n := 0x2#4) (by decide) (by decide) fun _ h => by simp only [decodeClass8, h]

theorem encoded_xor : Encoded 0xF00F#16 0x8003#16 (fun w => .xor (fieldX w) (fieldY w)) :=
  encoded_of_decodeClass8 (n := 0x3#4) (by decide) (by decide) fun _ h => by simp only [decodeClass8, h]

theorem encoded_addReg : Encoded 0xF00F#16 0x8004#16 (fun w => .addReg (fieldX w) (fieldY w)) :=
  encoded_of_decodeClass8 (n := 0x4#4) (by decide) (by decide) fun _ h => by simp only [decodeClass8, h]

/-! ## The widened sum (spec/42_load_alu.md R82, R87) -/

/-- Nine bits hold the sum of two bytes. -/
theorem wideSum_toNat (a b : Byte) : (wideSum a b).toNat = a.toNat + b.toNat := by
  have ha : a.toNat < 2 ^ 8 := a.isLt
  have hb : b.toNat < 2 ^ 8 := b.isLt
  simp only [wideSum, BitVec.toNat_add, BitVec.toNat_setWidth]
  omega

theorem sumByte_toNat (a b : Byte) : (sumByte a b).toNat = (a.toNat + b.toNat) % 256 := by
  rw [sumByte, BitVec.toNat_setWidth, wideSum_toNat]

theorem carryFlag_toNat (a b : Byte) : (carryFlag a b).toNat = if a.toNat + b.toNat > 255 then 1 else 0 := by
  rw [carryFlag, wideSum_toNat, apply_ite BitVec.toNat]
  rfl

/-! ## Loads, additions and the logic instructions (spec/42_load_alu.md R81 to R87) -/

section Meanings
variable (x y : RegIdx) (nn : Byte) (s : State)

/-- The dispatch of LD_IMM, and its meaning. -/
theorem exec_ldImm : exec (.ldImm x nn) s = .next (s.setReg x nn).advance := rfl

/-- The dispatch of ADD_IMM, and its meaning. -/
theorem exec_addImm : exec (.addImm x nn) s = .next (s.setReg x (sumByte (s.reg x) nn)).advance := rfl

/-- The dispatch of LD_REG, and its meaning. -/
theorem exec_ldReg : exec (.ldReg x y) s = .next (s.setReg x (s.reg y)).advance := rfl

/-- The dispatch of OR, and its meaning. -/
theorem exec_or : exec (.or x y) s = .next (s.setReg x (s.reg x ||| s.reg y)).advance := rfl

/-- The dispatch of AND, and its meaning. -/
theorem exec_and : exec (.and x y) s = .next (s.setReg x (s.reg x &&& s.reg y)).advance := rfl

/-- The dispatch of XOR, and its meaning. -/
theorem exec_xor : exec (.xor x y) s = .next (s.setReg x (s.reg x ^^^ s.reg y)).advance := rfl

/-- The dispatch of ADD_REG, and its meaning. -/
theorem exec_addReg : exec (.addReg x y) s =
    .next (s.writeFlagged x (sumByte (s.reg x) (s.reg y)) (carryFlag (s.reg x) (s.reg y))).advance := rfl

end Meanings

/-- Settles O22: LD_IMM is the row of class 0x6, and its meaning is one register write. -/
theorem loadImmediateWritesTheRegister : Obligations.LoadImmediateWritesTheRegister := by
  unfold Obligations.LoadImmediateWritesTheRegister
  exact ⟨encoded_ldImm, fun x nn s =>
    ⟨_, exec_ldImm x nn s, s.reg_setReg_advance x nn, State.advance_pc _, s.setReg_advance_frame x nn⟩⟩

/-- Settles O23: ADD_IMM is the row of class 0x7, and it writes the truncated sum to its one register. -/
theorem addImmediateWrapsAndWritesNoFlag : Obligations.AddImmediateWrapsAndWritesNoFlag := by
  unfold Obligations.AddImmediateWrapsAndWritesNoFlag
  refine ⟨encoded_addImm, fun x nn s =>
    ⟨_, exec_addImm x nn s, ?_, State.advance_pc _, s.setReg_advance_frame x _⟩⟩
  rw [State.reg_setReg_advance, sumByte_toNat]

/-- Settles O24: LD_REG is the row 0x0 of class 0x8, and its meaning is one register write. -/
theorem loadRegisterCopies : Obligations.LoadRegisterCopies := by
  unfold Obligations.LoadRegisterCopies
  exact ⟨encoded_ldReg, fun x y s =>
    ⟨_, exec_ldReg x y s, s.reg_setReg_advance x _, State.advance_pc _, s.setReg_advance_frame x _⟩⟩

/-- Settles O25: the rows 0x1 to 0x3 of class 0x8 each write one register, with the bitwise operation of its name. -/
theorem logicIsBitwiseAndWritesNoFlag : Obligations.LogicIsBitwiseAndWritesNoFlag := by
  unfold Obligations.LogicIsBitwiseAndWritesNoFlag
  refine ⟨⟨encoded_or, encoded_and, encoded_xor⟩, fun x y s => ⟨?_, ?_, ?_⟩⟩
  · refine ⟨_, exec_or x y s, State.advance_pc _, s.setReg_advance_frame x _, fun k _ => ?_⟩
    rw [State.reg_setReg_advance, BitVec.getLsbD_or]
  · refine ⟨_, exec_and x y s, State.advance_pc _, s.setReg_advance_frame x _, fun k _ => ?_⟩
    rw [State.reg_setReg_advance, BitVec.getLsbD_and]
  · refine ⟨_, exec_xor x y s, State.advance_pc _, s.setReg_advance_frame x _, fun k _ => ?_⟩
    rw [State.reg_setReg_advance, BitVec.getLsbD_xor]

/-- Settles O26: ADD_REG is the row 0x4 of class 0x8. The flag is written last, so it stands for every destination; the
sum stands in a destination other than the flag register. -/
theorem addRegistersWritesSumThenCarry : Obligations.AddRegistersWritesSumThenCarry := by
  unfold Obligations.AddRegistersWritesSumThenCarry
  refine ⟨encoded_addReg, fun x y s =>
    ⟨_, exec_addReg x y s, fun hx => ?_, ?_, State.advance_pc _, s.writeFlagged_advance_frame x _ _⟩⟩
  · rw [State.reg_advance, State.writeFlagged_dest s x _ _ hx, sumByte_toNat]
  · rw [← carryFlag_toNat]
    exact congrArg BitVec.toNat (s.writeFlagged_flag x _ _)

end Sys2Proof.Machine

namespace Sys2Proof.Machine

/-! ## The frame of a write to `I` (spec/10_state.md R18) -/

/-- A write to `I` keeps every frame that leaves the index register free. -/
theorem FrameBut.setI {regs : List RegIdx} {parts : List Part} {s t : State} (h : FrameBut regs parts s t)
    (hindex : Part.index ∈ parts) (a : Word) : FrameBut regs parts s (t.setI a) where
  registers r hr := (t.reg_setI a r).trans (h.registers r hr)
  index hp := absurd hindex hp
  stack hp := (t.setI_stack a).trans (h.stack hp)
  random hp := (t.setI_rand a).trans (h.random hp)
  display hp := (t.setI_events a).trans (h.display hp)
  memory b := (congrArg (Memory.read · b) (t.setI_mem a)).trans (h.memory b)
  parameters := (t.setI_cfg a).trans h.parameters

/-- An instruction whose result goes to `I`: one write to `I`, then the next `pc`. -/
theorem State.setI_advance_frame (s : State) (a : Word) : FrameBut [] [.index] s (s.setI a).advance :=
  ((FrameBut.refl [] [.index] s).setI (List.mem_cons_self ..) a).setPc _

/-! ## LD_I (spec/43_index_random.md R100) -/

theorem encoded_ldI : Encoded 0xF000#16 0xA000#16 (fun w => .ldI (fieldNNN w)) :=
  encoded_of_decodeTree (c := 0xA#4) (by decide) (by decide) fun _ _ h => by simp only [decodeTree, h]

/-- The dispatch of LD_I, and its meaning. -/
theorem exec_ldI (nnn : Addr12) (s : State) : exec (.ldI nnn) s = .next (s.setI (addrOperand nnn)).advance := rfl

/-- Settles O30: LD_I is the row of class 0xA, and its meaning is one write of the widened address to `I`. -/
theorem loadIndexWritesTheAddress : Obligations.LoadIndexWritesTheAddress := by
  unfold Obligations.LoadIndexWritesTheAddress
  refine ⟨encoded_ldI, fun nnn s =>
    ⟨_, exec_ldI nnn s, ?_, State.advance_pc _, s.setI_advance_frame _⟩⟩
  rw [State.advance_i, State.setI_i, addrOperand_toNat]

end Sys2Proof.Machine

namespace Sys2Proof.Machine

/-! ## The frame of a display event (spec/44_display.md R108) -/

/-- An emitted event keeps every frame that leaves the display free. -/
theorem FrameBut.emit {regs : List RegIdx} {parts : List Part} {s t : State} (h : FrameBut regs parts s t)
    (hdisplay : Part.display ∈ parts) (e : DisplayEvent) : FrameBut regs parts s (t.emit e) where
  registers r hr := (t.reg_emit e r).trans (h.registers r hr)
  index hp := (t.emit_i e).trans (h.index hp)
  stack hp := (t.emit_stack e).trans (h.stack hp)
  random hp := (t.emit_rand e).trans (h.random hp)
  display hp := absurd hdisplay hp
  memory a := (congrArg (Memory.read · a) (t.emit_mem e)).trans (h.memory a)
  parameters := (t.emit_cfg e).trans h.parameters

/-- A display instruction: one event, then the next `pc`. -/
theorem State.emit_advance_frame (s : State) (e : DisplayEvent) : FrameBut [] [.display] s (s.emit e).advance :=
  ((FrameBut.refl [] [.display] s).emit (List.mem_cons_self ..) e).setPc _

/-! ## CLS (spec/44_display.md R105) -/

/-- A row with mask 0xF0FF in class 0x0 is the arm of `decodeClass0` for its low byte; the low byte 0x00 is left out,
because the halt word is tested before the class. -/
theorem encoded_of_decodeClass0 {value : Word} {nn : Byte} {f : Word → Instr} (hclass : fieldClass value = 0x0#4)
    (hvalue : fieldNN value = nn) (hnn : nn ≠ 0x00#8) (harm : ∀ w, fieldNN w = nn → decodeClass0 w = some (f w)) :
    Encoded 0xF0FF#16 value f := by
  intro addINN w hw
  obtain ⟨hwc, hwn⟩ := fields_of_maskF0FF hw
  have hw0 : fieldClass w = 0x0#4 := hwc.trans hclass
  have hwnn : fieldNN w = nn := hwn.trans hvalue
  rw [decodeWord_of_ne_zero addINN (ne_zero_of_fieldNN hwnn hnn), ← harm w hwnn]
  simp only [decodeTree, hw0]

theorem encoded_cls : Encoded 0xF0FF#16 0x00E0#16 (fun w => .cls (fieldX w)) :=
  encoded_of_decodeClass0 (nn := 0xE0#8) (by decide) (by decide) (by decide) fun _ h => by simp only [decodeClass0, h]

/-- The dispatch of CLS, and its meaning; the don't-care nibble is not read. -/
theorem exec_cls (dc : Nibble) (s : State) : exec (.cls dc) s = .next (s.emit .clear).advance := rfl

/-- Settles O33: CLS is the row 0xE0 of class 0x0, and its meaning is one Clear event. -/
theorem clearEmitsOneClearEvent : Obligations.ClearEmitsOneClearEvent := by
  unfold Obligations.ClearEmitsOneClearEvent
  refine ⟨encoded_cls, fun dc s => ⟨_, exec_cls dc s, ?_, State.advance_pc _, s.emit_advance_frame .clear⟩⟩
  rw [State.advance_events, State.emit_events]

end Sys2Proof.Machine

namespace Sys2Proof.Machine

/-! ## The frames of the stack and of the random source (spec/10_state.md R19, spec/43_index_random.md R103) -/

section Frames
variable {regs : List RegIdx} {parts : List Part} {s t : State}

/-- A push keeps every frame that leaves the stack free. -/
theorem FrameBut.push (h : FrameBut regs parts s t) (hstack : Part.stack ∈ parts) (a : Word) :
    FrameBut regs parts s (t.push a) where
  registers r hr := (t.reg_push a r).trans (h.registers r hr)
  index hp := (t.push_i a).trans (h.index hp)
  stack hp := absurd hstack hp
  random hp := (t.push_rand a).trans (h.random hp)
  display hp := (t.push_events a).trans (h.display hp)
  memory b := (congrArg (Memory.read · b) (t.push_mem a)).trans (h.memory b)
  parameters := (t.push_cfg a).trans h.parameters

/-- A pop keeps every frame that leaves the stack free. -/
theorem FrameBut.dropTop (h : FrameBut regs parts s t) (hstack : Part.stack ∈ parts) :
    FrameBut regs parts s t.dropTop where
  registers r hr := (t.reg_dropTop r).trans (h.registers r hr)
  index hp := t.dropTop_i.trans (h.index hp)
  stack hp := absurd hstack hp
  random hp := t.dropTop_rand.trans (h.random hp)
  display hp := t.dropTop_events.trans (h.display hp)
  memory b := (congrArg (Memory.read · b) t.dropTop_mem).trans (h.memory b)
  parameters := t.dropTop_cfg.trans h.parameters

/-- A draw keeps every frame that leaves the random source free. -/
theorem FrameBut.drawRandom (h : FrameBut regs parts s t) (hrandom : Part.random ∈ parts) :
    FrameBut regs parts s t.drawRandom where
  registers r hr := (t.reg_drawRandom r).trans (h.registers r hr)
  index hp := t.drawRandom_i.trans (h.index hp)
  stack hp := t.drawRandom_stack.trans (h.stack hp)
  random hp := absurd hrandom hp
  display hp := t.drawRandom_events.trans (h.display hp)
  memory b := (congrArg (Memory.read · b) t.drawRandom_mem).trans (h.memory b)
  parameters := t.drawRandom_cfg.trans h.parameters

end Frames

section InstructionFrames
variable (s : State)

/-- A call: a push and a `pc` update. -/
theorem State.push_setPc_frame (a target : Word) : FrameBut [] [.stack] s ((s.push a).setPc target) :=
  ((FrameBut.refl [] [.stack] s).push (List.mem_cons_self ..) a).setPc target

/-- A return: a pop and a `pc` update. -/
theorem State.dropTop_setPc_frame (target : Word) : FrameBut [] [.stack] s (s.dropTop.setPc target) :=
  ((FrameBut.refl [] [.stack] s).dropTop (List.mem_cons_self ..)).setPc target

/-- RND: a draw, one register write, then the next `pc`. -/
theorem State.drawRandom_setReg_advance_frame (x : RegIdx) (b : Byte) :
    FrameBut [x] [.random] s (s.drawRandom.setReg x b).advance :=
  (((FrameBut.refl [x] [.random] s).drawRandom (List.mem_cons_self ..)).setReg (List.mem_cons_self ..) b).setPc _

end InstructionFrames

/-! ## What the three meanings with more than one outcome leave when they complete -/

section Completions
variable {s t : State}

/-- R71 in one form: the top entry goes to `pc` and off the stack, and an empty stack stands for `pc` itself. -/
theorem execRet_eq (s : State) : execRet s = .next (s.dropTop.setPc (s.stack.headD s.pc)) := by
  rcases execRet_cases s with ⟨hempty, he⟩ | ⟨top, rest, hstack, he⟩
  · rw [he]
    cases s
    cases hempty
    rfl
  · rw [he, hstack, List.headD_cons]

theorem execCall_next {nnn : Addr12} (h : execCall nnn s = .next t) :
    s.stackFull = false ∧ t = (s.push (s.pc + 2#16)).setPc (addrOperand nnn) := by
  rcases execCall_cases nnn s with ⟨_, he⟩ | ⟨hroom, he⟩ <;> rw [he] at h <;> cases h
  exact ⟨hroom, rfl⟩

theorem execDrw_next {x y : RegIdx} {n : Nibble} (h : execDrw x y n s = .next t) :
    t = (s.emit (.draw (s.reg x) (s.reg y) ((rowAddrs s.i n.toNat).map fun a => s.mem.read a.toNat))).advance := by
  rcases execDrw_cases x y n s with ⟨_, he⟩ | ⟨_, _, _, he⟩ <;> rw [he] at h <;> cases h
  rfl

end Completions

/-! ## What a completed instruction leaves unchanged, and its `pc` (spec/10_state.md R12, R14) -/

section Completed
variable {i : Instr} {s t : State}

/-- No instruction writes the Memory Store. -/
theorem exec_next_mem (h : exec i s = .next t) : t.mem = s.mem := by
  cases i with
  | ret _ => cases (execRet_eq s).symm.trans h; rfl
  | call _ => rw [(execCall_next h).2]; rfl
  | drw _ _ _ => rw [execDrw_next h]; rfl
  | halt0 => cases h
  | _ => cases h; rfl

/-- Each instruction keeps the frame of its row in the tables of R12, R18, R19, R103 and R108. -/
theorem exec_next_frame (h : exec i s = .next t) : FrameBut (registersWritten i) (partsWritten i) s t := by
  cases i with
  | ret _ => cases (execRet_eq s).symm.trans h; exact s.dropTop_setPc_frame _
  | call _ => rw [(execCall_next h).2]; exact s.push_setPc_frame _ _
  | drw _ _ _ => rw [execDrw_next h]; exact s.emit_advance_frame _
  | halt0 => cases h
  | jp _ | jpV0 _ => cases h; exact s.setPc_frame _
  | seImm _ _ | sneImm _ _ | seReg _ _ _ | sneReg _ _ _ => cases h; exact s.skipWhen_frame _
  | ldImm _ _ | addImm _ _ | ldReg _ _ | or _ _ | and _ _ | xor _ _ => cases h; exact s.setReg_advance_frame _ _
  | addReg _ _ | sub _ _ | subn _ _ | shr _ _ | shl _ _ => cases h; exact s.writeFlagged_advance_frame _ _ _
  | ldI _ | addI _ => cases h; exact s.setI_advance_frame _
  | rnd _ _ => cases h; exact s.drawRandom_setReg_advance_frame _ _
  | cls _ => cases h; exact s.emit_advance_frame _

/-- A byte widened to 16 bits keeps its value. -/
theorem wideReg_toNat (s : State) (r : RegIdx) : (wideReg s r).toNat = (s.reg r).toNat := by
  have hreg : (s.reg r).toNat < 2 ^ 8 := (s.reg r).isLt
  rw [wideReg, BitVec.toNat_setWidth, Nat.mod_eq_of_lt (by omega)]

/-- The sum of R78 has no carry out of 16 bits. -/
theorem indexedTarget_toNat (nnn : Addr12) (s : State) :
    (wideReg s indexJumpReg + addrOperand nnn).toNat = (s.reg 0x0#4).toNat + nnn.toNat := by
  have hreg : (s.reg 0x0#4).toNat < 2 ^ 8 := (s.reg 0x0#4).isLt
  have hnnn : nnn.toNat < 2 ^ 12 := nnn.isLt
  rw [BitVec.toNat_add, wideReg_toNat, addrOperand_toNat, indexJumpReg, Nat.mod_eq_of_lt (by omega)]

/-- Each instruction leaves `pc` at its update of the table of R14. -/
theorem exec_next_pc (h : exec i s = .next t) : PcUpdate s t.pc i := by
  cases i with
  | ret _ => cases (execRet_eq s).symm.trans h; rfl
  | call nnn => rw [(execCall_next h).2]; exact addrOperand_toNat nnn
  | drw _ _ _ => rw [execDrw_next h]; rfl
  | halt0 => cases h
  | jp nnn => cases h; exact addrOperand_toNat nnn
  | jpV0 nnn => cases h; exact indexedTarget_toNat nnn s
  | seImm _ _ | sneImm _ _ | seReg _ _ _ | sneReg _ _ _ => cases h; simp [PcUpdate]
  | _ => cases h; rfl

end Completed

end Sys2Proof.Machine

namespace Sys2Proof.Machine

/-! ## The whole-machine frame rules -/

/-- Settles O36: a step with a next state executed an instruction, and none writes memory. -/
theorem stepNeverWritesMemory : Obligations.StepNeverWritesMemory := by
  unfold Obligations.StepNeverWritesMemory
  intro s t h
  obtain ⟨i, _, he⟩ := step_next h
  have hmem : t.mem = s.mem := exec_next_mem he
  exact ⟨hmem, fun a => by rw [hmem]⟩

/-- Settles O37: the frame of the instruction at `pc`. -/
theorem stepChangesOnlyWhatItsInstructionWrites : Obligations.StepChangesOnlyWhatItsInstructionWrites := by
  unfold Obligations.StepChangesOnlyWhatItsInstructionWrites
  intro s t h
  obtain ⟨i, hi, he⟩ := step_next h
  exact ⟨i, hi, exec_next_frame he⟩

/-- Settles O38: the `pc` update of the instruction at `pc`. -/
theorem stepSetsPcByOneOfFiveUpdates : Obligations.StepSetsPcByOneOfFiveUpdates := by
  unfold Obligations.StepSetsPcByOneOfFiveUpdates
  intro s t h
  obtain ⟨i, hi, he⟩ := step_next h
  exact ⟨i, hi, exec_next_pc he⟩

/-- The rows of the table of R12 that hold `VF`: the flag writers, and the others when `x` names it. -/
theorem writesVF_cases {i : Instr} (h : 0xF#4 ∈ registersWritten i) :
    (∃ x y, i = .addReg x y ∨ i = .sub x y ∨ i = .subn x y ∨ i = .shr x y ∨ i = .shl x y) ∨
    (∃ nn, i = .ldImm 0xF#4 nn ∨ i = .addImm 0xF#4 nn ∨ i = .rnd 0xF#4 nn) ∨
    ∃ y, i = .ldReg 0xF#4 y ∨ i = .or 0xF#4 y ∨ i = .and 0xF#4 y ∨ i = .xor 0xF#4 y := by
  cases i with
  | addReg x y | sub x y | subn x y | shr x y | shl x y => exact .inl ⟨x, y, by simp⟩
  | ldImm x nn | addImm x nn | rnd x nn => cases List.mem_singleton.1 h; exact .inr (.inl ⟨nn, by simp⟩)
  | ldReg x y | or x y | and x y | xor x y => cases List.mem_singleton.1 h; exact .inr (.inr ⟨y, by simp⟩)
  | _ => cases h

/-- Settles O39: a changed `VF` is outside the frame, so the instruction's row of R12 holds it. -/
theorem onlyFlagWritersAndNamedWritesChangeVF : Obligations.OnlyFlagWritersAndNamedWritesChangeVF := by
  unfold Obligations.OnlyFlagWritersAndNamedWritesChangeVF
  intro s t h hchanged
  obtain ⟨i, hi, he⟩ := step_next h
  have hwritten : 0xF#4 ∈ registersWritten i := by
    by_contra hn
    exact hchanged ((exec_next_frame he).registers _ hn)
  exact ⟨i, hi, writesVF_cases hwritten⟩

/-! ## The stack over a step (spec/10_state.md R19, R20) -/

theorem stack_mem_partsWritten {i : Instr} (h : Part.stack ∈ partsWritten i) :
    (∃ nnn, i = .call nnn) ∨ ∃ dc, i = .ret dc := by
  cases i with
  | call nnn => exact .inl ⟨nnn, rfl⟩
  | ret dc => exact .inr ⟨dc, rfl⟩
  | _ => simp [partsWritten] at h

/-- What a step can do to the stack: nothing, the push of a CALL with room for it, or the pop of a RET into `pc`. -/
theorem step_stack_cases {s t : State} (h : step s = .next t) :
    t.stack = s.stack ∨
    (∃ nnn, s.AtInstr (.call nnn) ∧ s.stackFull = false ∧ t.stack = (s.pc + 2#16) :: s.stack) ∨
    (∃ dc, s.AtInstr (.ret dc) ∧ s.stack = t.pc :: t.stack) := by
  obtain ⟨i, hi, he⟩ := step_next h
  by_cases hwrites : Part.stack ∈ partsWritten i
  · obtain ⟨nnn, rfl⟩ | ⟨dc, rfl⟩ := stack_mem_partsWritten hwrites
    · obtain ⟨hroom, rfl⟩ := execCall_next he
      exact .inr (.inl ⟨nnn, hi, hroom, rfl⟩)
    · cases (execRet_eq s).symm.trans he
      cases hstack : s.stack with
      | nil => exact .inl (by simp [hstack])
      | cons top rest => exact .inr (.inr ⟨dc, hi, by simp [hstack]⟩)
  · exact .inl ((exec_next_frame he).stack hwrites)

/-- Settles O41: the three cases of the stack, without the room the push needs. -/
theorem stackChangesOnlyByCallAndReturn : Obligations.StackChangesOnlyByCallAndReturn := by
  unfold Obligations.StackChangesOnlyByCallAndReturn
  intro s t h
  rcases step_stack_cases h with hsame | ⟨nnn, hi, _, hpush⟩ | hpop
  · exact .inl hsame
  · exact .inr (.inl ⟨nnn, hi, hpush⟩)
  · exact .inr (.inr hpop)

theorem State.stackFull_iff (s : State) : s.stackFull = true ↔ s.cfg.stackDepth = some s.stack.length := by
  simp [State.stackFull]

/-! ## The display over a step (spec/44_display.md R108) -/

theorem display_mem_partsWritten {i : Instr} (h : Part.display ∈ partsWritten i) :
    (∃ dc, i = .cls dc) ∨ ∃ x y n, i = .drw x y n := by
  cases i with
  | cls dc => exact .inl ⟨dc, rfl⟩
  | drw x y n => exact .inr ⟨x, y, n, rfl⟩
  | _ => simp [partsWritten] at h

/-- Settles O42: the events stay unless the instruction writes the display, and CLS and DRW emit one each. -/
theorem stepEmitsAtMostOneEvent : Obligations.StepEmitsAtMostOneEvent := by
  unfold Obligations.StepEmitsAtMostOneEvent
  intro s t h
  obtain ⟨i, hi, he⟩ := step_next h
  by_cases hwrites : Part.display ∈ partsWritten i
  · obtain ⟨dc, rfl⟩ | ⟨x, y, n, rfl⟩ := display_mem_partsWritten hwrites
    · cases (exec_cls dc s).symm.trans he
      exact .inr (.inl ⟨dc, hi, rfl⟩)
    · rw [execDrw_next he]
      exact .inr (.inr ⟨x, y, n, _, hi, by rw [List.length_map, rowAddrs_length], rfl⟩)
  · exact .inl ((exec_next_frame he).display hwrites)

/-! ## The invariant (spec/10_state.md R20, spec/20_memory.md R33) -/

/-- A push needs room and a pop makes it, so the stack fits after a step if it did before. -/
theorem step_keeps_stackFits {s t : State} (hfits : s.stackFits) (h : step s = .next t) : t.stackFits := by
  intro depth hdepth
  obtain ⟨i, _, he⟩ := step_next h
  rw [(exec_next_frame he).parameters] at hdepth
  have hs : s.stack.length ≤ depth := hfits depth hdepth
  rcases step_stack_cases h with hsame | ⟨_, _, hroom, hpush⟩ | ⟨_, _, hpop⟩
  · rwa [hsame]
  · have hne : s.stack.length ≠ depth := by
      rintro rfl
      rw [s.stackFull_iff.2 hdepth] at hroom
      cases hroom
    rw [hpush, List.length_cons]
    omega
  · rw [hpop, List.length_cons] at hs
    omega

/-- Settles O2: the reset state lists no memory and holds no return address. -/
theorem resetMeetsInvariant : Obligations.ResetMeetsInvariant where
  params := by decide
  canonical := ⟨List.Pairwise.nil, List.forall_mem_nil _⟩
  entriesInStore := List.forall_mem_nil _
  stackFits _ _ := Nat.zero_le _

/-- Settles O3: parameters and memory are those before the step, and the stack still fits. -/
theorem stepKeepsInvariant : Obligations.StepKeepsInvariant := by
  unfold Obligations.StepKeepsInvariant
  intro s t hinv h
  obtain ⟨i, _, he⟩ := step_next h
  have hcfg : t.cfg = s.cfg := (exec_next_frame he).parameters
  have hmem : t.mem = s.mem := exec_next_mem he
  exact
    { params := hcfg ▸ hinv.params
      canonical := hmem ▸ hinv.canonical
      entriesInStore := by rw [hmem, hcfg]; exact hinv.entriesInStore
      stackFits := step_keeps_stackFits hinv.stackFits h }

/-! ## The oldest return addresses along a run (spec/10_state.md R19, spec/20_memory.md R40) -/

/-- An entry on top of `d` others is not among the `d` oldest. -/
theorem bottomEntries_cons {d : Nat} {stack : List Word} (h : d ≤ stack.length) (a : Word) :
    bottomEntries d (a :: stack) = bottomEntries d stack := by
  rw [bottomEntries, bottomEntries, List.length_cons, Nat.sub_add_comm h, List.drop_succ_cons]

theorem bottomEntries_length (stack : List Word) : bottomEntries stack.length stack = stack := by
  rw [bottomEntries, Nat.sub_self, List.drop_zero]

theorem step_keeps_bottomEntries {d : Nat} {s t : State} (h : step s = .next t) (hs : d ≤ s.stack.length)
    (ht : d ≤ t.stack.length) : bottomEntries d t.stack = bottomEntries d s.stack := by
  rcases step_stack_cases h with hsame | ⟨_, _, _, hpush⟩ | ⟨_, _, hpop⟩
  · rw [hsame]
  · rw [hpush, bottomEntries_cons hs]
  · rw [hpop, bottomEntries_cons ht]

theorem Run.head {P : State → Prop} {k : Nat} {s t : State} (h : Run P k s t) : P s := by
  cases h with
  | done hs => exact hs
  | more hs _ _ => exact hs

/-- Settles O51, by induction on the run: each of its steps keeps the `d` oldest entries. -/
theorem returnAddressesBelowStayUntouched : Obligations.ReturnAddressesBelowStayUntouched := by
  unfold Obligations.ReturnAddressesBelowStayUntouched
  intro d k s t hrun
  induction hrun with
  | done _ => rfl
  | more hs hstep hrest ih => exact ih.trans (step_keeps_bottomEntries hstep hs hrest.head)

/-- A run that stays above its first depth and ends at it ends with its first stack. -/
theorem Run.stack_eq_of_balanced {k : Nat} {s t : State} (hrun : Run (fun u => s.stack.length ≤ u.stack.length) k s t)
    (hdepth : t.stack.length = s.stack.length) : t.stack = s.stack :=
  calc t.stack = bottomEntries s.stack.length t.stack := by rw [← hdepth, bottomEntries_length]
    _ = bottomEntries s.stack.length s.stack := returnAddressesBelowStayUntouched _ _ _ _ hrun
    _ = s.stack := bottomEntries_length _

/-- Settles O52: the RET finds the entry the CALL pushed on top. -/
theorem balancedCallReturnsAfterTheCall : Obligations.BalancedCallReturnsAfterTheCall := by
  unfold Obligations.BalancedCallReturnsAfterTheCall
  intro s s1 s2 nnn dc k hcall hstep hrun hdepth hret
  obtain ⟨_, rfl⟩ := execCall_next ((step_of_atInstr hcall).symm.trans hstep)
  have hstack : s2.stack = (s.pc + 2#16) :: s.stack := hrun.stack_eq_of_balanced hdepth
  refine ⟨_, (step_of_atInstr hret).trans (execRet_eq s2), ?_, ?_⟩
  · rw [State.setPc_pc, hstack, List.headD_cons]
  · rw [State.setPc_stack, State.dropTop_stack, hstack, List.tail_cons]

end Sys2Proof.Machine

namespace Sys2Proof.Machine

/-! ## The remaining rows of the opcode map (spec/30_encoding.md R50, R51, R57) -/

theorem encoded_ret : Encoded 0xF0FF#16 0x00EE#16 (fun w => .ret (fieldX w)) :=
  encoded_of_decodeClass0 (nn := 0xEE#8) (by decide) (by decide) (by decide) fun _ h => by simp only [decodeClass0, h]

theorem encoded_call : Encoded 0xF000#16 0x2000#16 (fun w => .call (fieldNNN w)) :=
  encoded_of_decodeTree (c := 0x2#4) (by decide) (by decide) fun _ _ h => by simp only [decodeTree, h]

theorem encoded_jpV0 : Encoded 0xF000#16 0xB000#16 (fun w => .jpV0 (fieldNNN w)) :=
  encoded_of_decodeTree (c := 0xB#4) (by decide) (by decide) fun _ _ h => by simp only [decodeTree, h]

theorem encoded_rnd : Encoded 0xF000#16 0xC000#16 (fun w => .rnd (fieldX w) (fieldNN w)) :=
  encoded_of_decodeTree (c := 0xC#4) (by decide) (by decide) fun _ _ h => by simp only [decodeTree, h]

theorem encoded_drw : Encoded 0xF000#16 0xD000#16 (fun w => .drw (fieldX w) (fieldY w) (fieldN w)) :=
  encoded_of_decodeTree (c := 0xD#4) (by decide) (by decide) fun _ _ h => by simp only [decodeTree, h]

theorem encoded_sub : Encoded 0xF00F#16 0x8005#16 (fun w => .sub (fieldX w) (fieldY w)) :=
  encoded_of_decodeClass8 (n := 0x5#4) (by decide) (by decide) fun _ h => by simp only [decodeClass8, h]

theorem encoded_shr : Encoded 0xF00F#16 0x8006#16 (fun w => .shr (fieldX w) (fieldY w)) :=
  encoded_of_decodeClass8 (n := 0x6#4) (by decide) (by decide) fun _ h => by simp only [decodeClass8, h]

theorem encoded_subn : Encoded 0xF00F#16 0x8007#16 (fun w => .subn (fieldX w) (fieldY w)) :=
  encoded_of_decodeClass8 (n := 0x7#4) (by decide) (by decide) fun _ h => by simp only [decodeClass8, h]

theorem encoded_shl : Encoded 0xF00F#16 0x800E#16 (fun w => .shl (fieldX w) (fieldY w)) :=
  encoded_of_decodeClass8 (n := 0xE#4) (by decide) (by decide) fun _ h => by simp only [decodeClass8, h]

/-- R57: class 0xF is decided by its low byte alone. -/
theorem decodeWord_of_classF (addINN : Byte) {w : Word} (h : fieldClass w = 0xF#4) :
    decodeWord addINN w = if fieldNN w = addINN then some (.addI (fieldX w)) else none := by
  rw [decodeWord_of_fieldClass addINN h (by decide)]
  simp only [decodeTree, h]
  rfl

/-- The row of ADD_I, whose match takes the parameter. -/
theorem decodeWord_of_addI_row {addINN : Byte} {w : Word} (h : w &&& 0xF0FF#16 = 0xF000#16 ||| addINN.setWidth 16) :
    decodeWord addINN w = some (.addI (fieldX w)) := by
  obtain ⟨hclass, hnn⟩ := fields_of_maskF0FF h
  have hvalue : 0xF000#16 ||| addINN.setWidth 16 = wordXNN 0xF#4 0x0#4 addINN := by simp [wordXNN]
  rw [hvalue, fieldClass_wordXNN] at hclass
  rw [hvalue, fieldNN_wordXNN] at hnn
  rw [decodeWord_of_classF addINN hclass, if_pos hnn]

end Sys2Proof.Machine

namespace Sys2Proof

open Sys2Proof.Machine

/-! ## A row of the map as a decoder

The instruction of `i`'s row with the operands a word has in it: what the decoder reads from every word that selects the
row. -/

/-- The instruction of the row of `i` with the fields of `w`. -/
def Instr.withOperandsOf (i : Instr) (w : Word) : Instr :=
  match i with
  | .cls _ => .cls (fieldX w)
  | .ret _ => .ret (fieldX w)
  | .jp _ => .jp (fieldNNN w)
  | .call _ => .call (fieldNNN w)
  | .seImm _ _ => .seImm (fieldX w) (fieldNN w)
  | .sneImm _ _ => .sneImm (fieldX w) (fieldNN w)
  | .seReg _ _ _ => .seReg (fieldX w) (fieldY w) (fieldN w)
  | .ldImm _ _ => .ldImm (fieldX w) (fieldNN w)
  | .addImm _ _ => .addImm (fieldX w) (fieldNN w)
  | .ldReg _ _ => .ldReg (fieldX w) (fieldY w)
  | .or _ _ => .or (fieldX w) (fieldY w)
  | .and _ _ => .and (fieldX w) (fieldY w)
  | .xor _ _ => .xor (fieldX w) (fieldY w)
  | .addReg _ _ => .addReg (fieldX w) (fieldY w)
  | .sub _ _ => .sub (fieldX w) (fieldY w)
  | .shr _ _ => .shr (fieldX w) (fieldY w)
  | .subn _ _ => .subn (fieldX w) (fieldY w)
  | .shl _ _ => .shl (fieldX w) (fieldY w)
  | .sneReg _ _ _ => .sneReg (fieldX w) (fieldY w) (fieldN w)
  | .ldI _ => .ldI (fieldNNN w)
  | .jpV0 _ => .jpV0 (fieldNNN w)
  | .rnd _ _ => .rnd (fieldX w) (fieldNN w)
  | .drw _ _ _ => .drw (fieldX w) (fieldY w) (fieldN w)
  | .addI _ => .addI (fieldX w)
  | .halt0 => .halt0

/-- A word that selects the row of `i` decodes to the instruction of that row with the word's own operands. -/
theorem decodeWord_of_selects {addINN : Byte} {i : Instr} {w : Word} (h : (opcodeRow addINN i).selects w = true) :
    decodeWord addINN w = some (i.withOperandsOf w) := by
  have hw : w &&& (opcodeRow addINN i).mask = (opcodeRow addINN i).value := beq_iff_eq.1 h
  cases i with
  | cls _ => exact encoded_cls addINN w hw
  | ret _ => exact encoded_ret addINN w hw
  | jp _ => exact encoded_jp addINN w hw
  | call _ => exact encoded_call addINN w hw
  | seImm _ _ => exact encoded_seImm addINN w hw
  | sneImm _ _ => exact encoded_sneImm addINN w hw
  | seReg _ _ _ => exact encoded_seReg addINN w hw
  | ldImm _ _ => exact encoded_ldImm addINN w hw
  | addImm _ _ => exact encoded_addImm addINN w hw
  | ldReg _ _ => exact encoded_ldReg addINN w hw
  | or _ _ => exact encoded_or addINN w hw
  | and _ _ => exact encoded_and addINN w hw
  | xor _ _ => exact encoded_xor addINN w hw
  | addReg _ _ => exact encoded_addReg addINN w hw
  | sub _ _ => exact encoded_sub addINN w hw
  | shr _ _ => exact encoded_shr addINN w hw
  | subn _ _ => exact encoded_subn addINN w hw
  | shl _ _ => exact encoded_shl addINN w hw
  | sneReg _ _ _ => exact encoded_sneReg addINN w hw
  | ldI _ => exact encoded_ldI addINN w hw
  | jpV0 _ => exact encoded_jpV0 addINN w hw
  | rnd _ _ => exact encoded_rnd addINN w hw
  | drw _ _ _ => exact encoded_drw addINN w hw
  | addI _ => exact decodeWord_of_addI_row hw
  | halt0 => exact (decodeWord_eq_halt0_iff addINN w).2 ((BitVec.and_allOnes (x := w)).symm.trans hw)

/-- The operands do not decide the row. -/
theorem opcodeRow_withOperandsOf (addINN : Byte) (i : Instr) (w : Word) :
    opcodeRow addINN (i.withOperandsOf w) = opcodeRow addINN i := by
  cases i <;> rfl

/-- The word of an instruction selects its row (the family of Laws/PerInstr.lean, over all constructors). -/
theorem selects_encode (addINN : Byte) (i : Instr) : (opcodeRow addINN i).selects (encode addINN i) = true := by
  cases i with
  | cls dc => exact Laws.EncodingSelectsRow.cls dc addINN
  | ret dc => exact Laws.EncodingSelectsRow.ret dc addINN
  | jp nnn => exact Laws.EncodingSelectsRow.jp nnn addINN
  | call nnn => exact Laws.EncodingSelectsRow.call nnn addINN
  | seImm x nn => exact Laws.EncodingSelectsRow.seImm x nn addINN
  | sneImm x nn => exact Laws.EncodingSelectsRow.sneImm x nn addINN
  | seReg x y dc => exact Laws.EncodingSelectsRow.seReg x y dc addINN
  | ldImm x nn => exact Laws.EncodingSelectsRow.ldImm x nn addINN
  | addImm x nn => exact Laws.EncodingSelectsRow.addImm x nn addINN
  | ldReg x y => exact Laws.EncodingSelectsRow.ldReg x y addINN
  | or x y => exact Laws.EncodingSelectsRow.or x y addINN
  | and x y => exact Laws.EncodingSelectsRow.and x y addINN
  | xor x y => exact Laws.EncodingSelectsRow.xor x y addINN
  | addReg x y => exact Laws.EncodingSelectsRow.addReg x y addINN
  | sub x y => exact Laws.EncodingSelectsRow.sub x y addINN
  | shr x dc => exact Laws.EncodingSelectsRow.shr x dc addINN
  | subn x y => exact Laws.EncodingSelectsRow.subn x y addINN
  | shl x dc => exact Laws.EncodingSelectsRow.shl x dc addINN
  | sneReg x y dc => exact Laws.EncodingSelectsRow.sneReg x y dc addINN
  | ldI nnn => exact Laws.EncodingSelectsRow.ldI nnn addINN
  | jpV0 nnn => exact Laws.EncodingSelectsRow.jpV0 nnn addINN
  | rnd x nn => exact Laws.EncodingSelectsRow.rnd x nn addINN
  | drw x y n => exact Laws.EncodingSelectsRow.drw x y n addINN
  | addI x => exact Laws.EncodingSelectsRow.addI x addINN
  | halt0 => exact Laws.EncodingSelectsRow.halt0 addINN

/-- The fields of an instruction's word are its operands. -/
theorem withOperandsOf_encode (addINN : Byte) (i : Instr) : i.withOperandsOf (encode addINN i) = i := by
  cases i <;> simp [Instr.withOperandsOf, encode]

/-! ## Decode of encode -/

theorem decodeWord_encode (addINN : Byte) (i : Instr) : decodeWord addINN (encode addINN i) = some i := by
  rw [decodeWord_of_selects (selects_encode addINN i), withOperandsOf_encode]

/-- Bytes decode to an instruction exactly when their first two, joined, do. -/
theorem decodeBytes_ok_iff (addINN : Byte) (hi lo : Byte) (rest : List Byte) (i : Instr) :
    decodeBytes addINN (hi :: lo :: rest) = .ok (i, rest) ↔ decodeWord addINN (joinBytes hi lo) = some i := by
  rw [decodeBytes]
  cases decodeWord addINN (joinBytes hi lo) <;> simp

/-- Settles O11: the word of `i` selects the row of `i`, and its fields there are the operands of `i`. -/
theorem decodeOfEncodeIsTheInstruction : Obligations.DecodeOfEncodeIsTheInstruction := by
  unfold Obligations.DecodeOfEncodeIsTheInstruction
  refine fun addINN i => ⟨decodeWord_encode addINN i, fun rest => ?_⟩
  refine (decodeBytes_ok_iff addINN _ _ rest i).2 ?_
  rw [joinBytes_highByte_lowByte, decodeWord_encode]

/-! ## Encode of decode

Each arm of the decision tree names the class, or class and selector, that the encoder writes back. -/

section WordsOfClass
variable {w : Word} {c : Nibble}

theorem wordNNN_of_fieldClass (h : fieldClass w = c) : wordNNN c (fieldNNN w) = w := h ▸ wordNNN_fields w

theorem wordXNN_of_fields {nn : Byte} (h : fieldClass w = c) (hnn : fieldNN w = nn) : wordXNN c (fieldX w) nn = w :=
  h ▸ hnn ▸ wordXNN_fields w

theorem wordXYN_of_fields {n : Nibble} (h : fieldClass w = c) (hn : fieldN w = n) :
    wordXYN c (fieldX w) (fieldY w) n = w :=
  h ▸ hn ▸ wordXYN_fields w

end WordsOfClass

section EncodeOfDecode
variable {addINN : Byte} {w : Word} {i : Instr}

theorem encode_of_decodeClass0 (hc : fieldClass w = 0x0#4) (h : decodeClass0 w = some i) : encode addINN i = w := by
  unfold decodeClass0 at h
  split at h <;> cases h <;> exact wordXNN_of_fields hc ‹_›

theorem encode_of_decodeClass8 (hc : fieldClass w = 0x8#4) (h : decodeClass8 w = some i) : encode addINN i = w := by
  unfold decodeClass8 at h
  split at h <;> cases h <;> exact wordXYN_of_fields hc ‹_›

theorem encode_of_decodeClassF (hc : fieldClass w = 0xF#4) (h : decodeClassF addINN w = some i) :
    encode addINN i = w := by
  unfold decodeClassF at h
  split at h <;> cases h
  exact wordXNN_of_fields hc ‹_›

/-- The last arm of the decision tree is class 0xF: each of the other classes has an arm of its own. -/
theorem eq_classF_of_notMem : ∀ c : Nibble,
    c ∉ [0x0#4, 0x1#4, 0x2#4, 0x3#4, 0x4#4, 0x5#4, 0x6#4, 0x7#4, 0x8#4, 0x9#4, 0xA#4, 0xB#4, 0xC#4, 0xD#4, 0xE#4] →
    c = 0xF#4 := by
  decide

theorem encode_of_decodeTree (h : decodeTree addINN w = some i) : encode addINN i = w := by
  unfold decodeTree at h
  split at h
  case h_1 hc => exact encode_of_decodeClass0 hc h
  case h_9 hc => exact encode_of_decodeClass8 hc h
  case h_15 => cases h
  case h_16 =>
    have hc : fieldClass w = 0xF#4 := eq_classF_of_notMem _ (by simp_all)
    exact encode_of_decodeClassF hc h
  case h_2 hc | h_3 hc | h_11 hc | h_12 hc => cases h; exact wordNNN_of_fieldClass hc
  case h_4 hc | h_5 hc | h_7 hc | h_8 hc | h_13 hc => cases h; exact wordXNN_of_fields hc rfl
  case h_6 hc | h_10 hc | h_14 hc => cases h; exact wordXYN_of_fields hc rfl

/-- The halt word has its own constructor; every other word goes through the tree. -/
theorem encode_of_decodeWord (h : decodeWord addINN w = some i) : encode addINN i = w := by
  by_cases hw : w = 0x0000#16
  · subst hw
    cases (decodeWord_zero addINN).symm.trans h
    rfl
  · rw [decodeWord_of_ne_zero addINN hw] at h
    exact encode_of_decodeTree h

end EncodeOfDecode

/-- Settles O12: each arm of the decoder keeps every bit that its word's class and selector do not fix. -/
theorem encodeOfDecodeIsTheWord : Obligations.EncodeOfDecodeIsTheWord := by
  unfold Obligations.EncodeOfDecodeIsTheWord
  exact fun addINN w i h => encode_of_decodeWord h

/-! ## The opcode map and the decision tree -/

/-- The rows of the map are the rows of the instructions. -/
theorem mem_opcodeMap (addINN : Byte) (r : OpcodeRow) : r ∈ opcodeMap addINN ↔ ∃ i, opcodeRow addINN i = r := by
  constructor
  · intro h
    obtain ⟨i, _, hi⟩ := List.mem_map.1 h
    exact ⟨i, hi⟩
  · rintro ⟨i, rfl⟩
    cases i <;> simp [opcodeMap, sampleInstrs1, sampleInstrs2, sampleInstrs3, opcodeRow]

/-- A word selects the row of the instruction it decodes to, because it is that instruction's word. -/
theorem selects_of_decodeWord {addINN : Byte} {w : Word} {i : Instr} (h : decodeWord addINN w = some i) :
    (opcodeRow addINN i).selects w = true := by
  rw [← encode_of_decodeWord h]
  exact selects_encode addINN i

/-- Settles O13: from the map to the tree by the row's own decoder, back by the word of the decoded instruction. -/
theorem decoderAgreesWithTheOpcodeMap : Obligations.DecoderAgreesWithTheOpcodeMap := by
  unfold Obligations.DecoderAgreesWithTheOpcodeMap
  intro addINN w r
  constructor
  · rintro ⟨hr, hselects⟩
    obtain ⟨i, rfl⟩ := (mem_opcodeMap addINN r).1 hr
    exact ⟨_, decodeWord_of_selects hselects, opcodeRow_withOperandsOf addINN i w⟩
  · rintro ⟨i, hi, rfl⟩
    exact ⟨(mem_opcodeMap addINN _).2 ⟨i, rfl⟩, selects_of_decodeWord hi⟩

/-- Settles O14: both rows are the row of the one instruction the word decodes to. -/
theorem opcodeMapRowsDoNotOverlap : Obligations.OpcodeMapRowsDoNotOverlap := by
  unfold Obligations.OpcodeMapRowsDoNotOverlap
  intro addINN w r q hr hq hrw hqw
  obtain ⟨i, hi, rfl⟩ := (decoderAgreesWithTheOpcodeMap addINN w r).1 ⟨hr, hrw⟩
  obtain ⟨j, hj, rfl⟩ := (decoderAgreesWithTheOpcodeMap addINN w q).1 ⟨hq, hqw⟩
  rw [Option.some.inj (hi.symm.trans hj)]

/-! ## Don't-care bits (spec/30_encoding.md R49) -/

/-- Words that agree under a mask have the same field wherever the mask has all of its bits. -/
theorem field_eq_of_masked_eq {w w' m : Word} {start len : Nat} (h : w &&& m = w' &&& m)
    (hm : m.extractLsb' start len = BitVec.allOnes len) : w.extractLsb' start len = w'.extractLsb' start len := by
  have hfield := congrArg (BitVec.extractLsb' start len) h
  rwa [BitVec.extractLsb'_and, BitVec.extractLsb'_and, hm, BitVec.and_allOnes, BitVec.and_allOnes] at hfield

/-- No meaning reads a bit outside the row's mask and operands. -/
theorem exec_withOperandsOf_congr {addINN : Byte} {i : Instr} {w w' : Word}
    (h : w &&& ((opcodeRow addINN i).mask ||| (opcodeRow addINN i).operands) =
      w' &&& ((opcodeRow addINN i).mask ||| (opcodeRow addINN i).operands)) (s : State) :
    exec (i.withOperandsOf w') s = exec (i.withOperandsOf w) s := by
  cases i with
  | cls _ | ret _ | halt0 => rfl
  | jp _ | call _ | ldI _ | jpV0 _ =>
    dsimp only [opcodeRow] at h
    have hnnn : fieldNNN w = fieldNNN w' := field_eq_of_masked_eq h (by decide)
    simp only [Instr.withOperandsOf, hnnn]
  | seImm _ _ | sneImm _ _ | ldImm _ _ | addImm _ _ | rnd _ _ =>
    dsimp only [opcodeRow] at h
    have hx : fieldX w = fieldX w' := field_eq_of_masked_eq h (by decide)
    have hnn : fieldNN w = fieldNN w' := field_eq_of_masked_eq h (by decide)
    simp only [Instr.withOperandsOf, hx, hnn]
  | seReg _ _ _ | sneReg _ _ _ | ldReg _ _ | or _ _ | and _ _ | xor _ _ | addReg _ _ | sub _ _ | subn _ _ =>
    dsimp only [opcodeRow] at h
    have hx : fieldX w = fieldX w' := field_eq_of_masked_eq h (by decide)
    have hy : fieldY w = fieldY w' := field_eq_of_masked_eq h (by decide)
    simp only [Instr.withOperandsOf, exec, hx, hy]
  | shr _ _ | shl _ _ | addI _ =>
    dsimp only [opcodeRow] at h
    have hx : fieldX w = fieldX w' := field_eq_of_masked_eq h (by decide)
    simp only [Instr.withOperandsOf, exec, hx]
  | drw _ _ _ =>
    dsimp only [opcodeRow] at h
    have hx : fieldX w = fieldX w' := field_eq_of_masked_eq h (by decide)
    have hy : fieldY w = fieldY w' := field_eq_of_masked_eq h (by decide)
    have hn : fieldN w = fieldN w' := field_eq_of_masked_eq h (by decide)
    simp only [Instr.withOperandsOf, hx, hy, hn]

/-- Words that agree under a mask select the same rows of a smaller one. -/
theorem selects_of_masked_eq {r : OpcodeRow} {w w' m : Word} (h : w &&& (r.mask ||| m) = w' &&& (r.mask ||| m))
    (hw : r.selects w = true) : r.selects w' = true := by
  have hsub : (r.mask ||| m) &&& r.mask = r.mask := by
    ext k hk
    cases hbit : r.mask[k] <;> simp [hbit]
  have hmask : w &&& r.mask = w' &&& r.mask := by
    rw [← hsub, ← BitVec.and_assoc, h, BitVec.and_assoc]
  rwa [OpcodeRow.selects, ← hmask]

/-- Settles O15: the other word selects the same row, and decodes to the row's instruction with operands of the same
effect. -/
theorem dontCareBitsHaveNoEffect : Obligations.DontCareBitsHaveNoEffect := by
  unfold Obligations.DontCareBitsHaveNoEffect
  intro addINN w w' i hi hagree
  have hselects : (opcodeRow addINN i).selects w = true := selects_of_decodeWord hi
  have hown : i = i.withOperandsOf w := Option.some.inj (hi.symm.trans (decodeWord_of_selects hselects))
  refine ⟨i.withOperandsOf w', decodeWord_of_selects (selects_of_masked_eq hagree hselects),
    opcodeRow_withOperandsOf addINN i w', fun s => ?_⟩
  rw [exec_withOperandsOf_congr hagree, ← hown]

/-! ## The unrecognised words (spec/30_encoding.md R52) -/

theorem decodeClass0_eq_none_iff (w : Word) : decodeClass0 w = none ↔ fieldNN w ≠ 0xE0#8 ∧ fieldNN w ≠ 0xEE#8 := by
  unfold decodeClass0
  split <;> simp_all

/-- The last arm of class 0x8 takes the selectors that no instruction has. -/
theorem mem_unassignedSelectors_of_notMem : ∀ n : Nibble,
    n ∉ [0x0#4, 0x1#4, 0x2#4, 0x3#4, 0x4#4, 0x5#4, 0x6#4, 0x7#4, 0xE#4] →
    n ∈ [0x8#4, 0x9#4, 0xA#4, 0xB#4, 0xC#4, 0xD#4, 0xF#4] := by
  decide

theorem decodeClass8_eq_none_iff (w : Word) :
    decodeClass8 w = none ↔ fieldN w ∈ [0x8#4, 0x9#4, 0xA#4, 0xB#4, 0xC#4, 0xD#4, 0xF#4] := by
  unfold decodeClass8
  split
  case h_10 => simpa using mem_unassignedSelectors_of_notMem (fieldN w) (by simp_all)
  all_goals simp_all

theorem decodeClassF_eq_none_iff (addINN : Byte) (w : Word) : decodeClassF addINN w = none ↔ fieldNN w ≠ addINN := by
  simp [decodeClassF]

theorem decodeTree_eq_none_iff (addINN : Byte) {w : Word} (hw : w ≠ 0x0000#16) :
    decodeTree addINN w = none ↔ Unrecognised addINN w := by
  unfold decodeTree Unrecognised
  split
  case h_1 hc => simp [hc, hw, decodeClass0_eq_none_iff]
  case h_9 hc => simp [hc, decodeClass8_eq_none_iff]
  case h_15 hc => simp [hc]
  case h_16 =>
    have hc : fieldClass w = 0xF#4 := eq_classF_of_notMem _ (by simp_all)
    simp [hc, decodeClassF_eq_none_iff]
  case h_2 hc | h_3 hc | h_4 hc | h_5 hc | h_6 hc | h_7 hc | h_8 hc | h_10 hc | h_11 hc | h_12 hc | h_13 hc | h_14 hc =>
    simp [hc]

/-- Settles O7: the halt word is recognised, and of the other words the tree rejects those of the four spaces. -/
theorem decoderRejectsExactlyTheUnrecognisedWords : Obligations.DecoderRejectsExactlyTheUnrecognisedWords := by
  unfold Obligations.DecoderRejectsExactlyTheUnrecognisedWords
  intro addINN w
  by_cases hw : w = 0x0000#16
  · subst hw
    simp [decodeWord_zero, Unrecognised, fieldClass]
  · rw [decodeWord_of_ne_zero addINN hw]
    exact decodeTree_eq_none_iff addINN hw

/-- Settles O10: the fourteen words, evaluated by the decoder. -/
theorem specWordsDecodeAsWritten : Obligations.SpecWordsDecodeAsWritten := by
  unfold Obligations.SpecWordsDecodeAsWritten
  decide

end Sys2Proof

namespace Sys2Proof.Machine

/-! ## What the fetched word says about a step (spec/40_step_fetch_decode.md R60, spec/60_exceptions.md R110) -/

/-- Settles O5: the two bytes decode as their joined word does, and the step executes what it decodes to. -/
theorem stepExecutesTheDecodedInstruction : Obligations.StepExecutesTheDecodedInstruction := by
  unfold Obligations.StepExecutesTheDecodedInstruction
  intro s i hpc hpc1 hdecode
  have hi : s.AtInstr i := ⟨_, ⟨hpc, hpc1, rfl⟩, (decodeBytes_ok_iff _ _ _ [] i).1 hdecode⟩
  exact step_of_atInstr hi

/-- A word decodes to a CALL exactly when its class is 0x2. -/
theorem decodeWord_call_iff (addINN : Byte) (w : Word) :
    (∃ nnn, decodeWord addINN w = some (.call nnn)) ↔ fieldClass w = 0x2#4 := by
  constructor
  · rintro ⟨nnn, h⟩
    rw [← encode_of_decodeWord h]
    exact fieldClass_wordNNN 0x2#4 nnn
  · intro h
    refine ⟨fieldNNN w, ?_⟩
    rw [decodeWord_of_fieldClass addINN h (by decide)]
    simp only [decodeTree, h]

/-- A fatal condition by the fetched word: what the word decodes to, and the condition that reports it. -/
theorem step_fault_of_fetches {s : State} {w : Word} {f : Fault} (hw : s.Fetches w) (h : step s = .fault f) :
    (decodeWord s.cfg.addINN w = some .halt0 ∧ f = .haltSignal s.pc) ∨
    (decodeWord s.cfg.addINN w = none ∧ f = .unknownOpcode w s.pc) ∨
    (∃ nnn, decodeWord s.cfg.addINN w = some (.call nnn) ∧ s.stackFull = true ∧ f = .stackOverflow w s.pc) := by
  rcases step_fault h with ⟨v, hv, hd, rfl⟩ | ⟨i, hi, he⟩
  · cases State.Fetches_unique hw hv
    exact .inr (.inl ⟨hd, rfl⟩)
  · rw [State.atInstr_iff_of_fetches hw] at hi
    rcases exec_fault he with ⟨rfl, rfl⟩ | ⟨nnn, rfl, hfull, rfl⟩
    · exact .inl ⟨hi, rfl⟩
    · rw [encode_of_decodeWord hi]
      exact .inr (.inr ⟨nnn, hi, hfull, rfl⟩)

theorem step_of_decodeWord_none {s : State} {w : Word} (hw : s.Fetches w) (h : decodeWord s.cfg.addINN w = none) :
    step s = .fault (.unknownOpcode w s.pc) := by
  rw [step_of_fetches hw, h]

/-- Settles O8: UnknownOpcode comes from a rejected word alone, and the decoder rejects the unrecognised words. -/
theorem unrecognisedWordRaisesUnknownOpcode : Obligations.UnrecognisedWordRaisesUnknownOpcode := by
  unfold Obligations.UnrecognisedWordRaisesUnknownOpcode
  intro s w v p hw
  rw [← decoderRejectsExactlyTheUnrecognisedWords]
  constructor
  · intro h
    rcases step_fault_of_fetches hw h with ⟨_, hf⟩ | ⟨hd, hf⟩ | ⟨_, _, _, hf⟩ <;> cases hf
    exact ⟨hd, rfl, rfl⟩
  · rintro ⟨hd, rfl, rfl⟩
    exact step_of_decodeWord_none hw hd

/-- With a full store no address is outside it, so no instruction is refused. -/
theorem exec_ne_refused_of_fullStore {s : State} (hstore : s.cfg.memSize = 65536) (i : Instr) (r : Refusal) :
    exec i s ≠ .refused r := by
  intro h
  obtain ⟨_, _, _, _, a, _, ha, _⟩ := exec_refused h
  have hlt : a.toNat < 2 ^ 16 := a.isLt
  omega

/-- A CALL on a full stack reports its own word. -/
theorem exec_call_of_stackFull {s : State} (nnn : Addr12) (h : s.stackFull = true) :
    exec (.call nnn) s = .fault (.stackOverflow (encode s.cfg.addINN (.call nnn)) s.pc) := by
  rcases execCall_cases nnn s with ⟨_, he⟩ | ⟨hroom, _⟩
  · exact he
  · rw [h] at hroom
    cases hroom

/-- Settles O43: each word's way to end. A word with none of the three conditions decodes to an instruction that ends in
no condition and, with a full store, in no refusal. -/
theorem everyWordHasOneOutcome : Obligations.EveryWordHasOneOutcome := by
  unfold Obligations.EveryWordHasOneOutcome
  intro s w hstore hw
  rw [← decoderRejectsExactlyTheUnrecognisedWords]
  refine ⟨fun hzero => ?_, step_of_decodeWord_none hw, fun hclass hfull => ?_, fun hne hknown hnoverflow => ?_⟩
  · exact (haltWordRaisesHaltSignal.2.2 s w s.pc hw).2 ⟨hzero, rfl⟩
  · obtain ⟨nnn, hd⟩ := (decodeWord_call_iff s.cfg.addINN w).2 hclass
    rw [step_of_atInstr ⟨w, hw, hd⟩, exec_call_of_stackFull nnn (s.stackFull_iff.2 hfull), encode_of_decodeWord hd]
  · obtain ⟨i, hd⟩ := Option.ne_none_iff_exists'.1 hknown
    have hstep : step s = exec i s := step_of_atInstr ⟨w, hw, hd⟩
    cases hs : step s with
    | next t => exact ⟨t, rfl⟩
    | fault f =>
      rcases step_fault_of_fetches hw hs with ⟨hhalt, _⟩ | ⟨hnone, _⟩ | ⟨nnn, hcall, hfull, _⟩
      · exact absurd ((decodeWord_eq_halt0_iff _ w).1 hhalt) hne
      · exact absurd hnone hknown
      · exact absurd ⟨(decodeWord_call_iff _ w).1 ⟨nnn, hcall⟩, s.stackFull_iff.1 hfull⟩ hnoverflow
    | refused r => exact absurd (hstep.symm.trans hs) (exec_ne_refused_of_fullStore hstore i r)

/-- Settles O49: a condition carries no state, so the state held is the one the step began in. -/
theorem fatalConditionKeepsStateAndRepeats : Obligations.FatalConditionKeepsStateAndRepeats := by
  unfold Obligations.FatalConditionKeepsStateAndRepeats
  intro s f h
  have hheld : afterStep s = some s := by rw [afterStep, h]
  exact ⟨hheld, by rw [hheld, Option.map_some, h]⟩

/-! ## The signals of a step (spec/60_exceptions.md R115, spec/10_state.md R22) -/

/-- The strobe of a step is the event its trace grew by. -/
theorem newEvent_append (before : List DisplayEvent) (e : Option DisplayEvent) :
    newEvent before (before ++ e.toList) = e := by
  rw [newEvent, List.drop_left]
  cases e <;> rfl

/-- The events of a step in one form: at most one is appended. -/
theorem step_events {s t : State} (h : step s = .next t) :
    ∃ e : Option DisplayEvent, t.events = s.events ++ e.toList := by
  rcases stepEmitsAtMostOneEvent s t h with hsame | ⟨_, _, hclear⟩ | ⟨_, _, _, _, _, _, hdraw⟩
  · exact ⟨none, by rw [hsame, Option.toList_none, List.append_nil]⟩
  · exact ⟨some _, hclear⟩
  · exact ⟨some _, hdraw⟩

/-- The three conditions exclude each other, because a word decodes in one way: the condition's number says which. -/
theorem fault_kind_iffs {s : State} {w : Word} {f : Fault} (hw : s.Fetches w) (h : step s = .fault f) :
    (f.kind = 1#2 ↔ w = 0x0000#16) ∧ (f.kind = 2#2 ↔ Unrecognised s.cfg.addINN w) ∧
      (f.kind = 3#2 ↔ fieldClass w = 0x2#4) := by
  rw [← decodeWord_eq_halt0_iff s.cfg.addINN, ← decoderRejectsExactlyTheUnrecognisedWords,
    ← decodeWord_call_iff s.cfg.addINN]
  rcases step_fault_of_fetches hw h with ⟨hd, rfl⟩ | ⟨hd, rfl⟩ | ⟨nnn, hd, _, rfl⟩ <;> simp [hd, Fault.kind]

/-- R115: the reported word is the fetched one, and the reported `pc` the one it was fetched at. -/
theorem fault_context {s : State} {w : Word} {f : Fault} (hw : s.Fetches w) (h : step s = .fault f) :
    f.word = w ∧ f.faultPc = s.pc := by
  rcases step_fault_of_fetches hw h with ⟨hd, rfl⟩ | ⟨_, rfl⟩ | ⟨_, _, _, rfl⟩
  · exact ⟨((decodeWord_eq_halt0_iff _ w).1 hd).symm, rfl⟩
  · exact ⟨rfl, rfl⟩
  · exact ⟨rfl, rfl⟩

theorem stepSignals_of_fault {s : State} {f : Fault} (h : step s = .fault f) :
    stepSignals s = some { event := none, faultKind := f.kind, faultContext := some (f.word, f.faultPc) } := by
  rw [stepSignals, h]

theorem stepSignals_of_next {s t : State} (h : step s = .next t) :
    stepSignals s = some { event := newEvent s.events t.events, faultKind := 0#2, faultContext := none } := by
  rw [stepSignals, h]

/-- Settles O50: the context and the number of a condition, and the event of a step without one. -/
theorem faultSignalsReportTheFetchedWordAndPc : Obligations.FaultSignalsReportTheFetchedWordAndPc := by
  unfold Obligations.FaultSignalsReportTheFetchedWordAndPc
  refine ⟨fun s w f hw h => ⟨?_, fault_kind_iffs hw h⟩, fun s t h => ?_⟩
  · obtain ⟨hword, hpc⟩ := fault_context hw h
    rw [stepSignals_of_fault h, hword, hpc]
  · obtain ⟨e, he⟩ := step_events h
    refine ⟨e, ?_, he⟩
    rw [stepSignals_of_next h, he, newEvent_append]

/-! ## The addresses a step reads (spec/20_memory.md R33, R38) -/

theorem stepReads_of_fetches {s : State} {w : Word} (h : s.Fetches w) :
    stepReads s = s.fetchAddrs ++ dataAddrs s (decodeWord s.cfg.addINN w) := by
  rw [stepReads, (s.fetchWord_ok_iff w).2 h]

theorem stepReads_of_fetchWord_error {s : State} {r : Refusal} (h : s.fetchWord = .error r) :
    stepReads s = s.fetchAddrs := by
  rw [stepReads, h, List.append_nil]

theorem dataAddrs_eq_nil (s : State) {i : Option Instr} (h : ∀ x y n, i ≠ some (.drw x y n)) : dataAddrs s i = [] := by
  unfold dataAddrs
  split
  · exact absurd rfl (h _ _ _)
  · rfl

theorem fetchAddrs_subset_stepReads (s : State) : s.fetchAddrs ⊆ stepReads s :=
  List.subset_append_left _ _

theorem stepReads_of_drw {s : State} {x y : RegIdx} {n : Nibble} (h : s.AtInstr (.drw x y n)) :
    stepReads s = s.fetchAddrs ++ rowAddrs s.i n.toNat := by
  obtain ⟨w, hw, hd⟩ := h
  rw [stepReads_of_fetches hw, hd]
  rfl

theorem stepReads_of_not_drw {s : State} (h : ∀ x y n, ¬ s.AtInstr (.drw x y n)) : stepReads s = s.fetchAddrs := by
  cases hf : s.fetchWord with
  | error r => exact stepReads_of_fetchWord_error hf
  | ok w =>
    have hw : s.Fetches w := (s.fetchWord_ok_iff w).1 hf
    rw [stepReads_of_fetches hw, dataAddrs_eq_nil s fun x y n hd => h x y n ⟨w, hw, hd⟩, List.append_nil]

/-- Settles O46: the two addresses of the fetch, and the row addresses of a DRW. -/
theorem stepReadsTwoBytesAndTheSpriteRows : Obligations.StepReadsTwoBytesAndTheSpriteRows := by
  unfold Obligations.StepReadsTwoBytesAndTheSpriteRows
  refine fun s => ⟨fun x y n h => ?_, stepReads_of_not_drw⟩
  rw [stepReads_of_drw h, List.length_append, rowAddrs_length]
  rfl

/-- A refused step names an address it reads, outside the store. -/
theorem step_refused {s : State} {r : Refusal} (h : step s = .refused r) :
    ∃ a ∈ stepReads s, s.cfg.memSize ≤ a.toNat ∧ r = .outsideStore a := by
  rcases step_cases s with ⟨a, ha, hout, hs⟩ | ⟨_, _, _, hs⟩ | ⟨w, i, hw, hd, hs⟩
  · cases hs.symm.trans h
    exact ⟨a, fetchAddrs_subset_stepReads s ha, Nat.le_of_not_lt hout, rfl⟩
  · cases hs.symm.trans h
  · obtain ⟨x, y, n, rfl, a, ha, hout, hr⟩ := exec_refused (hs.symm.trans h)
    rw [stepReads_of_drw ⟨w, hw, hd⟩]
    exact ⟨a, List.mem_append_right _ ha, Nat.le_of_not_lt hout, hr⟩

theorem fetchAddrs_inStore {s : State} {w : Word} (h : s.Fetches w) : ∀ a ∈ s.fetchAddrs, a.toNat < s.cfg.memSize := by
  obtain ⟨hpc, hpc1, _⟩ := h
  simp only [State.fetchAddrs, List.forall_mem_cons]
  exact ⟨hpc, hpc1, List.forall_mem_nil _⟩

theorem exists_fetches_of_not_refused {s : State} (h : ∀ r, step s ≠ .refused r) : ∃ w, s.Fetches w := by
  rcases step_cases s with ⟨_, _, _, hs⟩ | ⟨w, hw, _⟩ | ⟨w, _, hw, _⟩
  · exact absurd hs (h _)
  · exact ⟨w, hw⟩
  · exact ⟨w, hw⟩

/-- A step that is not refused has all it reads in the store. -/
theorem stepReads_inStore {s : State} (h : ∀ r, step s ≠ .refused r) : ∀ a ∈ stepReads s, a.toNat < s.cfg.memSize := by
  obtain ⟨w, hw⟩ := exists_fetches_of_not_refused h
  by_cases hdrw : ∃ x y n, s.AtInstr (.drw x y n)
  · obtain ⟨x, y, n, hi⟩ := hdrw
    rw [stepReads_of_drw hi]
    rcases execDrw_cases x y n s with ⟨hrows, _⟩ | ⟨_, _, _, he⟩
    · exact List.forall_mem_append.2 ⟨fetchAddrs_inStore hw, hrows⟩
    · exact absurd ((step_of_atInstr hi).trans he) (h _)
  · rw [stepReads_of_not_drw fun x y n hi => hdrw ⟨x, y, n, hi⟩]
    exact fetchAddrs_inStore hw

/-- Settles O44: a refusal names an address outside the store, and a step without one reads inside it. -/
theorem stepIsRefusedExactlyOutsideTheStore : Obligations.StepIsRefusedExactlyOutsideTheStore := by
  unfold Obligations.StepIsRefusedExactlyOutsideTheStore
  refine fun s => ⟨⟨?_, ?_⟩, fun r hr => step_refused hr⟩
  · rintro ⟨r, hr⟩
    obtain ⟨a, ha, hout, _⟩ := step_refused hr
    exact ⟨a, ha, hout⟩
  · rintro ⟨a, ha, hout⟩
    by_contra hn
    exact Nat.not_lt.2 hout (stepReads_inStore (fun r hr => hn ⟨r, hr⟩) a ha)

/-! ## A step over another memory (spec/20_memory.md R30, R38)

Memory enters a step through `memRead` alone, so memories that agree where a step reads give the same step. -/

section OtherMemory
variable {s : State} {m : Memory}

theorem State.memRead_withMem {a : Word} (h : m.read a.toNat = s.mem.read a.toNat) :
    (s.withMem m).memRead a = s.memRead a := by
  rw [State.memRead, State.memRead, ← h]
  rfl

theorem State.memReadAll_withMem {l : List Word} (h : ∀ a ∈ l, m.read a.toNat = s.mem.read a.toNat) :
    (s.withMem m).memReadAll l = s.memReadAll l := by
  induction l with
  | nil => rfl
  | cons a rest ih =>
    obtain ⟨ha, hrest⟩ := List.forall_mem_cons.1 h
    rw [State.memReadAll, State.memReadAll, State.memRead_withMem ha, ih hrest]

theorem State.fetchWord_withMem (h : ∀ a ∈ s.fetchAddrs, m.read a.toNat = s.mem.read a.toNat) :
    (s.withMem m).fetchWord = s.fetchWord := by
  have hpc : (s.withMem m).memRead s.pc = s.memRead s.pc := State.memRead_withMem (h _ (by simp [State.fetchAddrs]))
  have hpc1 : (s.withMem m).memRead (s.pc + 1#16) = s.memRead (s.pc + 1#16) :=
    State.memRead_withMem (h _ (by simp [State.fetchAddrs]))
  unfold State.fetchWord
  rw [← hpc, ← hpc1]
  rfl

theorem execCall_withMem (nnn : Addr12) : execCall nnn (s.withMem m) = outcomeWithMem m (execCall nnn s) := by
  have hfull : (s.withMem m).stackFull = s.stackFull := rfl
  unfold execCall
  rw [hfull]
  cases s.stackFull <;> rfl

theorem execDrw_withMem (x y : RegIdx) {n : Nibble}
    (h : ∀ a ∈ rowAddrs s.i n.toNat, m.read a.toNat = s.mem.read a.toNat) :
    execDrw x y n (s.withMem m) = outcomeWithMem m (execDrw x y n s) := by
  have hrows : (s.withMem m).memReadAll (rowAddrs (s.withMem m).i (countOperand n)) =
      s.memReadAll (rowAddrs s.i (countOperand n)) := State.memReadAll_withMem h
  unfold execDrw
  rw [hrows]
  cases s.memReadAll (rowAddrs s.i (countOperand n)) <;> rfl

/-- Every meaning but DRW's is the same over any memory; DRW's over one that agrees on the sprite rows. -/
theorem exec_withMem {i : Instr} (h : ∀ a ∈ dataAddrs s (some i), m.read a.toNat = s.mem.read a.toNat) :
    exec i (s.withMem m) = outcomeWithMem m (exec i s) := by
  cases i with
  | ret _ => exact (execRet_eq (s.withMem m)).trans (congrArg (outcomeWithMem m) (execRet_eq s)).symm
  | call nnn => exact execCall_withMem nnn
  | drw x y _ => exact execDrw_withMem x y h
  | _ => rfl

end OtherMemory

/-- Settles O45: the other memory gives the same fetch, so the same word and instruction, and then the same rows. -/
theorem stepDependsOnlyOnTheBytesItReads : Obligations.StepDependsOnlyOnTheBytesItReads := by
  unfold Obligations.StepDependsOnlyOnTheBytesItReads
  intro s m hagree
  have hfetch : (s.withMem m).fetchWord = s.fetchWord :=
    State.fetchWord_withMem fun a ha => hagree a (fetchAddrs_subset_stepReads s ha)
  cases hf : s.fetchWord with
  | error r => simp only [step, hfetch, hf, outcomeWithMem]
  | ok w =>
    have hw : s.Fetches w := (s.fetchWord_ok_iff w).1 hf
    have hw' : (s.withMem m).Fetches w := ((s.withMem m).fetchWord_ok_iff w).1 (hfetch.trans hf)
    have hcfg : (s.withMem m).cfg = s.cfg := rfl
    rw [step_of_fetches hw', step_of_fetches hw, hcfg]
    rw [stepReads_of_fetches hw] at hagree
    cases hd : decodeWord s.cfg.addINN w with
    | none => rfl
    | some i =>
      rw [hd] at hagree
      exact exec_withMem fun a ha => hagree a (List.mem_append_right _ ha)

/-! ## Runs that change nothing (spec/70_reset_and_hazards.md R137, R138) -/

/-- A step that answers its own state can be repeated any number of times. -/
theorem run_of_step_self {s : State} (h : step s = .next s) (k : Nat) : Host.Core.run Sys2Proof.core k s = .next s := by
  induction k with
  | zero => rfl
  | succ k ih => rw [core_run_succ k h, ih]

theorem exec_ret_of_empty (dc : Nibble) {s : State} (h : s.stack = []) : exec (.ret dc) s = .next s := by
  rcases execRet_cases s with ⟨_, he⟩ | ⟨top, rest, hstack, _⟩
  · exact he
  · rw [h] at hstack
    cases hstack

/-- Settles O17: the meaning of RET on an empty stack. -/
theorem returnOnEmptyStackChangesNothing : Obligations.ReturnOnEmptyStackChangesNothing := by
  unfold Obligations.ReturnOnEmptyStackChangesNothing
  exact fun dc s h => exec_ret_of_empty dc h

/-- Settles O47: the RET's step answers its own state. -/
theorem emptyReturnRunsForEver : Obligations.EmptyReturnRunsForEver := by
  unfold Obligations.EmptyReturnRunsForEver
  intro s dc k hi hstack
  exact run_of_step_self ((step_of_atInstr hi).trans (exec_ret_of_empty dc hstack)) k

/-- Settles O48: the jump's target is `pc`, so its step answers its own state. -/
theorem jumpToItselfRunsForEver : Obligations.JumpToItselfRunsForEver := by
  unfold Obligations.JumpToItselfRunsForEver
  intro s nnn k hi hpc
  have htarget : addrOperand nnn = s.pc := BitVec.eq_of_toNat_eq ((addrOperand_toNat nnn).trans hpc)
  have hself : exec (.jp nnn) s = .next s := by rw [exec_jp, htarget]; rfl
  exact run_of_step_self ((step_of_atInstr hi).trans hself) k

/-! ## The driver (spec/60_exceptions.md R126, spec/70_reset_and_hazards.md R130) -/

/-- Settles O53: the three arms of `drive`. -/
theorem driverMayOnlyStepAndReset : Obligations.DriverMayOnlyStepAndReset := by
  unfold Obligations.DriverMayOnlyStepAndReset
  exact fun s => ⟨rfl, rfl, rfl⟩

end Sys2Proof.Machine

namespace Sys2Proof.Machine

/-! ## RET, CALL and JP_V0 (spec/41_control_flow.md R71, R73, R78) -/

/-- Settles O16: RET is the row 0xEE of class 0x0, and on a non-empty stack it is a pop into `pc`. -/
theorem returnPopsTheTopEntryIntoPc : Obligations.ReturnPopsTheTopEntryIntoPc := by
  unfold Obligations.ReturnPopsTheTopEntryIntoPc
  refine ⟨encoded_ret, fun dc s top rest hstack => ⟨_, execRet_eq s, ?_, ?_, s.dropTop_setPc_frame _⟩⟩
  · rw [State.setPc_pc, hstack, List.headD_cons]
  · rw [State.setPc_stack, State.dropTop_stack, hstack, List.tail_cons]

/-- A CALL on a stack with room pushes and jumps. -/
theorem exec_call_of_room {s : State} (nnn : Addr12) (h : s.stackFull = false) :
    exec (.call nnn) s = .next ((s.push (s.pc + 2#16)).setPc (addrOperand nnn)) := by
  rcases execCall_cases nnn s with ⟨hfull, _⟩ | ⟨_, he⟩
  · rw [h] at hfull
    cases hfull
  · exact he

theorem wordNNN_toNat (c : Nibble) (nnn : Addr12) : (wordNNN c nnn).toNat = 0x1000 * c.toNat + nnn.toNat := by
  have hclass := fieldClass_toNat (wordNNN c nnn)
  have haddr := fieldNNN_toNat (wordNNN c nnn)
  rw [fieldClass_wordNNN] at hclass
  rw [fieldNNN_wordNNN] at haddr
  omega

/-- Settles O19: CALL is the row of class 0x2; a push and a jump with room, the CALL's own word without. -/
theorem callPushesTheReturnAddressOrOverflows : Obligations.CallPushesTheReturnAddressOrOverflows := by
  unfold Obligations.CallPushesTheReturnAddressOrOverflows
  refine ⟨encoded_call, fun nnn s hdepth => ?_, fun nnn s hdepth => ?_⟩
  · have hroom : s.stackFull = false := Bool.eq_false_iff.2 fun hfull => hdepth (s.stackFull_iff.1 hfull)
    exact ⟨_, exec_call_of_room nnn hroom, rfl, addrOperand_toNat nnn, s.push_setPc_frame _ _⟩
  · exact ⟨_, wordNNN_toNat 0x2#4 nnn, exec_call_of_stackFull nnn (s.stackFull_iff.2 hdepth)⟩

/-- The dispatch of JP_V0, and its meaning. -/
theorem exec_jpV0 (nnn : Addr12) (s : State) :
    exec (.jpV0 nnn) s = .next (s.setPc (wideReg s indexJumpReg + addrOperand nnn)) := rfl

/-- Settles O21: JP_V0 is the row of class 0xB; a byte and a 12-bit address sum to at most 0x10FE. -/
theorem indexedJumpAddsRegisterZero : Obligations.IndexedJumpAddsRegisterZero := by
  unfold Obligations.IndexedJumpAddsRegisterZero
  refine ⟨encoded_jpV0, fun nnn s => ⟨_, exec_jpV0 nnn s, indexedTarget_toNat nnn s, ?_, s.setPc_frame _⟩⟩
  rw [State.setPc_pc, indexedTarget_toNat]
  have hreg : (s.reg 0x0#4).toNat < 2 ^ 8 := (s.reg 0x0#4).isLt
  have hnnn : nnn.toNat < 2 ^ 12 := nnn.isLt
  omega

/-! ## Differences, shifts and their flags (spec/42_load_alu.md R88 to R91) -/

section AluValues
variable (a b : Byte)

theorem diffByte_toNat : (diffByte a b).toNat = (a.toNat + 256 - b.toNat) % 256 := by
  have hb : b.toNat < 2 ^ 8 := b.isLt
  rw [diffByte, BitVec.toNat_sub]
  congr 1
  omega

theorem notBorrowFlag_toNat : (notBorrowFlag a b).toNat = if a.toNat < b.toNat then 0 else 1 := by
  rw [notBorrowFlag, apply_ite BitVec.toNat, ← ite_not]
  simp only [ge_iff_le, not_le]
  rfl

theorem shrByte_toNat : (shrByte a).toNat = a.toNat / 2 := by
  rw [shrByte, BitVec.toNat_ushiftRight, Nat.shiftRight_one]

theorem shrFlag_toNat : (shrFlag a).toNat = a.toNat % 2 := by
  rw [shrFlag, BitVec.toNat_and]
  exact Nat.and_one_is_mod _

theorem shlByte_toNat : (shlByte a).toNat = 2 * a.toNat % 256 := by
  rw [shlByte, BitVec.toNat_shiftLeft, Nat.shiftLeft_eq, Nat.mul_comm]

/-- Bit 7 of a byte is its value compared with 128. -/
theorem shlFlag_toNat : (shlFlag a).toNat = if a.toNat ≥ 128 then 128 else 0 := by
  have ha : a.toNat < 2 ^ 8 := a.isLt
  rw [shlFlag, BitVec.toNat_and]
  refine (Nat.and_two_pow a.toNat 7).trans ?_
  have hbit : a.toNat / 2 ^ 7 % 2 = 1 ↔ a.toNat ≥ 128 := by omega
  simp only [Nat.testBit_eq_decide_div_mod_eq, hbit]
  by_cases h : a.toNat ≥ 128 <;> simp [h]

end AluValues

section FlaggedMeanings
variable (x y : RegIdx) (dc : Nibble) (s : State)

/-- The dispatch of SUB, and its meaning. -/
theorem exec_sub : exec (.sub x y) s =
    .next (s.writeFlagged x (diffByte (s.reg x) (s.reg y)) (notBorrowFlag (s.reg x) (s.reg y))).advance := rfl

/-- The dispatch of SUBN, and its meaning. -/
theorem exec_subn : exec (.subn x y) s =
    .next (s.writeFlagged x (diffByte (s.reg y) (s.reg x)) (notBorrowFlag (s.reg y) (s.reg x))).advance := rfl

/-- The dispatch of SHR, and its meaning; the don't-care nibble is not read. -/
theorem exec_shr : exec (.shr x dc) s = .next (s.writeFlagged x (shrByte (s.reg x)) (shrFlag (s.reg x))).advance := rfl

/-- The dispatch of SHL, and its meaning; the don't-care nibble is not read. -/
theorem exec_shl : exec (.shl x dc) s = .next (s.writeFlagged x (shlByte (s.reg x)) (shlFlag (s.reg x))).advance := rfl

end FlaggedMeanings

section FlaggedResults
variable (s : State) (x : RegIdx) (result flag : Byte)

theorem State.writeFlagged_advance_dest (h : x ≠ 0xF#4) : (s.writeFlagged x result flag).advance.reg x = result :=
  s.writeFlagged_dest x result flag h

/-- The flag is written last, so `VF` holds it for every destination. -/
theorem State.writeFlagged_advance_flag : (s.writeFlagged x result flag).advance.reg 0xF#4 = flag :=
  s.writeFlagged_flag x result flag

end FlaggedResults

/-- Settles O27: SUB and SUBN are the rows 0x5 and 0x7 of class 0x8, one with the operands of the other reversed. -/
theorem subtractionsWriteDifferenceThenNotBorrow : Obligations.SubtractionsWriteDifferenceThenNotBorrow := by
  unfold Obligations.SubtractionsWriteDifferenceThenNotBorrow
  refine ⟨⟨encoded_sub, encoded_subn⟩, fun x y s =>
    ⟨⟨_, exec_sub x y s, fun hx => ?_, ?_, State.advance_pc _, s.writeFlagged_advance_frame x _ _⟩,
      ⟨_, exec_subn x y s, fun hx => ?_, ?_, State.advance_pc _, s.writeFlagged_advance_frame x _ _⟩⟩⟩
  · rw [State.writeFlagged_advance_dest s x _ _ hx, diffByte_toNat]
  · rw [State.writeFlagged_advance_flag, notBorrowFlag_toNat]
  · rw [State.writeFlagged_advance_dest s x _ _ hx, diffByte_toNat]
  · rw [State.writeFlagged_advance_flag, notBorrowFlag_toNat]

/-- Settles O28: SHR is the row 0x6 of class 0x8. -/
theorem shiftRightHalvesAndKeepsTheLowBit : Obligations.ShiftRightHalvesAndKeepsTheLowBit := by
  unfold Obligations.ShiftRightHalvesAndKeepsTheLowBit
  refine ⟨encoded_shr, fun x dc s =>
    ⟨_, exec_shr x dc s, fun hx => ?_, ?_, State.advance_pc _, s.writeFlagged_advance_frame x _ _⟩⟩
  · rw [State.writeFlagged_advance_dest s x _ _ hx, shrByte_toNat]
  · rw [State.writeFlagged_advance_flag, shrFlag_toNat]

/-- Settles O29: SHL is the row 0xE of class 0x8. -/
theorem shiftLeftDoublesAndKeepsTheHighBit : Obligations.ShiftLeftDoublesAndKeepsTheHighBit := by
  unfold Obligations.ShiftLeftDoublesAndKeepsTheHighBit
  refine ⟨encoded_shl, fun x dc s =>
    ⟨_, exec_shl x dc s, fun hx => ?_, ?_, State.advance_pc _, s.writeFlagged_advance_frame x _ _⟩⟩
  · rw [State.writeFlagged_advance_dest s x _ _ hx, shlByte_toNat]
  · rw [State.writeFlagged_advance_flag, shlFlag_toNat]

/-! ## The flag values (spec/10_state.md R17) -/

section FlagValues
variable (a b : Byte)

theorem carryFlag_eq_zero_or_one : carryFlag a b = 0x00#8 ∨ carryFlag a b = 0x01#8 :=
  (ite_eq_or_eq _ _ _).symm

theorem notBorrowFlag_eq_zero_or_one : notBorrowFlag a b = 0x00#8 ∨ notBorrowFlag a b = 0x01#8 :=
  (ite_eq_or_eq _ _ _).symm

theorem shrFlag_eq_zero_or_one : shrFlag a = 0x00#8 ∨ shrFlag a = 0x01#8 := by
  have hflag := shrFlag_toNat a
  bv_omega

theorem shlFlag_eq_zero_or_eighty : shlFlag a = 0x00#8 ∨ shlFlag a = 0x80#8 := by
  have hflag := shlFlag_toNat a
  split at hflag <;> bv_omega

end FlagValues

/-- Settles O40: what each of the five flag writers leaves in `VF` is its own flag. -/
theorem flagValuesAreZeroOneOrEighty : Obligations.FlagValuesAreZeroOneOrEighty := by
  unfold Obligations.FlagValuesAreZeroOneOrEighty
  refine fun x y dc s t => ⟨?_, fun h => ?_⟩
  · rintro (h | h | h | h) <;> cases h <;> rw [State.writeFlagged_advance_flag]
    · exact carryFlag_eq_zero_or_one _ _
    · exact notBorrowFlag_eq_zero_or_one _ _
    · exact notBorrowFlag_eq_zero_or_one _ _
    · exact shrFlag_eq_zero_or_one _
  · cases h
    rw [State.writeFlagged_advance_flag]
    exact shlFlag_eq_zero_or_eighty _

/-! ## ADD_I and RND (spec/43_index_random.md R101, R102) -/

/-- The dispatch of ADD_I, and its meaning. -/
theorem exec_addI (x : RegIdx) (s : State) : exec (.addI x) s = .next (s.setI (s.i + wideReg s x)).advance := rfl

/-- Settles O31: the parameter decides class 0xF, and ADD_I is one write of the 16-bit sum to `I`. -/
theorem addToIndexWrapsAndWritesNoFlag : Obligations.AddToIndexWrapsAndWritesNoFlag := by
  unfold Obligations.AddToIndexWrapsAndWritesNoFlag
  refine ⟨fun addINN w => decodeWord_of_classF addINN, fun x s =>
    ⟨_, exec_addI x s, ?_, State.advance_pc _, s.setI_advance_frame _⟩⟩
  rw [State.advance_i, State.setI_i, BitVec.toNat_add, wideReg_toNat]

/-- The dispatch of RND, and its meaning. -/
theorem exec_rnd (x : RegIdx) (nn : Byte) (s : State) :
    exec (.rnd x nn) s = .next (s.drawRandom.setReg x (s.rand.byte &&& nn)).advance := rfl

theorem RandomSource.byte_of_supplied {r : RandomSource} {b : Byte} {later : List Byte} (h : r.supplied = b :: later) :
    r.byte = b := by
  rw [RandomSource.byte, h, List.headD_cons]

theorem RandomSource.next_supplied {r : RandomSource} {b : Byte} {later : List Byte} (h : r.supplied = b :: later) :
    r.next.supplied = later := by
  rw [RandomSource.next, h, List.tail_cons]

section Masked
variable (b nn : Byte)

theorem masked_and_not_mask : b &&& nn &&& ~~~nn = 0x00#8 := by
  rw [BitVec.and_assoc, BitVec.and_not_self]
  exact BitVec.and_zero

theorem masked_toNat_le : (b &&& nn).toNat ≤ nn.toNat := by
  rw [BitVec.toNat_and]
  exact Nat.and_le_right

end Masked

/-- Settles O32: RND is the row of class 0xC; one draw, and one write of the masked byte. -/
theorem randomIsTheDrawnByteMasked : Obligations.RandomIsTheDrawnByteMasked := by
  unfold Obligations.RandomIsTheDrawnByteMasked
  refine ⟨encoded_rnd, fun x nn s => ?_⟩
  have hreg : (s.drawRandom.setReg x (s.rand.byte &&& nn)).advance.reg x = s.rand.byte &&& nn :=
    State.reg_setReg_advance _ _ _
  refine ⟨_, exec_rnd x nn s, hreg, ?_, ?_, fun b later hsupplied => ⟨?_, ?_⟩, rfl, State.advance_pc _,
    s.drawRandom_setReg_advance_frame x _⟩
  · rw [hreg, masked_and_not_mask]
  · rw [hreg]
    exact masked_toNat_le _ _
  · rw [hreg, RandomSource.byte_of_supplied hsupplied]
  · rw [State.advance_rand, State.setReg_rand, State.drawRandom_rand, RandomSource.next_supplied hsupplied]

/-! ## DRW (spec/44_display.md R106, R107) -/

/-- R37: row `k` lies at `I + k`, modulo 65536. -/
theorem rowAddr_toNat (base : Word) (k : Nat) : (rowAddr base k).toNat = (base.toNat + k) % 65536 := by
  rw [rowAddr, BitVec.toNat_add, BitVec.toNat_ofNat, Nat.add_mod_mod]

theorem rowAddrs_getElem? {base : Word} {n k : Nat} (h : k < n) : (rowAddrs base n)[k]? = some (rowAddr base k) := by
  simp [rowAddrs, h]

/-- Settles O34: DRW is the row of class 0xD; with every row in the store its event carries the bytes at the row
addresses. -/
theorem drawEmitsTheSpriteRows : Obligations.DrawEmitsTheSpriteRows := by
  unfold Obligations.DrawEmitsTheSpriteRows
  refine ⟨encoded_drw, fun x y n s hrows => ?_⟩
  rcases execDrw_cases x y n s with ⟨_, he⟩ | ⟨a, ha, hout, _⟩
  · refine ⟨_, _, he, rfl, ?_, fun k hk => ?_, State.advance_pc _, s.emit_advance_frame _⟩
    · rw [List.length_map, rowAddrs_length]
    · rw [List.getElem?_map, rowAddrs_getElem? hk, Option.map_some, rowAddr_toNat]
  · obtain ⟨k, hk, rfl⟩ := mem_rowAddrs.1 ha
    rw [rowAddr_toNat] at hout
    exact absurd (hrows k hk) hout

/-- Settles O35: the row outside the store rules out that all rows are inside it. -/
theorem drawOutsideTheStoreIsRefused : Obligations.DrawOutsideTheStoreIsRefused := by
  unfold Obligations.DrawOutsideTheStoreIsRefused
  intro x y n s k hk hout
  rcases execDrw_cases x y n s with ⟨hrows, _⟩ | ⟨a, _, ha, he⟩
  · have hin := hrows _ (mem_rowAddrs.2 ⟨k, hk, rfl⟩)
    rw [rowAddr_toNat] at hin
    exact absurd hin (Nat.not_lt.2 hout)
  · exact ⟨a, he, Nat.le_of_not_lt ha⟩

/-! ## The Memory Store: canonical form, loader, placed words (spec/20_memory.md R31, R34; logs 6, 18) -/

/-- An address below every entry is unlisted. -/
theorem Memory.read_of_lt_all {m : Memory} {a : Nat} (h : ∀ e ∈ m, a < e.1) : m.read a = unlistedByte := by
  induction m with
  | nil => rfl
  | cons e rest ih =>
    obtain ⟨he, hrest⟩ := List.forall_mem_cons.1 h
    rw [Memory.read, if_neg (Nat.ne_of_gt he), ih hrest]

theorem Memory.read_cons_same (k : Nat) (b : Byte) (rest : Memory) : Memory.read ((k, b) :: rest) k = b :=
  if_pos rfl

theorem Memory.read_cons_other {k a : Nat} (h : k ≠ a) (b : Byte) (rest : Memory) :
    Memory.read ((k, b) :: rest) a = rest.read a :=
  if_neg h

/-- A canonical memory that reads as the empty one does is empty. -/
theorem Memory.eq_nil_of_read {m : Memory} (hm : m.wf) (h : ∀ a, m.read a = unlistedByte) : m = [] := by
  cases m with
  | nil => rfl
  | cons e rest =>
    obtain ⟨k, b⟩ := e
    obtain ⟨_, hb, _⟩ := Memory.wf_tail hm
    exact absurd ((Memory.read_cons_same k b rest).symm.trans (h k)) hb

/-- The first entry of a canonical memory is at or above the first of another that reads the same: below it all reads
as unlisted. -/
theorem Memory.first_le_of_read {k k' : Nat} {b b' : Byte} {rest rest' : Memory} (hm : Memory.wf ((k, b) :: rest))
    (hm' : Memory.wf ((k', b') :: rest')) (h : Memory.read ((k, b) :: rest) k = Memory.read ((k', b') :: rest') k) :
    k' ≤ k := by
  obtain ⟨_, hb, _⟩ := Memory.wf_tail hm
  obtain ⟨hlt', _, _⟩ := Memory.wf_tail hm'
  by_contra hk
  have hbelow : ∀ e ∈ (k', b') :: rest', k < e.1 :=
    List.forall_mem_cons.2 ⟨Nat.lt_of_not_le hk, fun e he => (Nat.lt_of_not_le hk).trans (hlt' e he)⟩
  rw [Memory.read_cons_same, Memory.read_of_lt_all hbelow] at h
  exact hb h

/-- Tails of canonical memories with the same first entry read the same if the memories do. -/
theorem Memory.read_tail_eq {k : Nat} {b : Byte} {rest rest' : Memory} (hlt : ∀ e ∈ rest, k < e.1)
    (hlt' : ∀ e ∈ rest', k < e.1) (h : ∀ a, Memory.read ((k, b) :: rest) a = Memory.read ((k, b) :: rest') a)
    (a : Nat) : rest.read a = rest'.read a := by
  by_cases hk : k = a
  · subst hk
    rw [Memory.read_of_lt_all hlt, Memory.read_of_lt_all hlt']
  · rw [← Memory.read_cons_other hk b rest, h, Memory.read_cons_other hk]

/-- Settles O56, by induction on the entries: the first entries are the same, and the tails read the same. -/
theorem canonicalMemoriesWithEqualBytesAreEqual : Obligations.CanonicalMemoriesWithEqualBytesAreEqual := by
  unfold Obligations.CanonicalMemoriesWithEqualBytesAreEqual
  intro m
  induction m with
  | nil => exact fun m' _ hm' h => (Memory.eq_nil_of_read hm' fun a => (h a).symm).symm
  | cons e rest ih =>
    intro m' hm hm' h
    cases m' with
    | nil => exact Memory.eq_nil_of_read hm h
    | cons e' rest' =>
      obtain ⟨k, b⟩ := e
      obtain ⟨k', b'⟩ := e'
      have hk : k = k' :=
        le_antisymm (Memory.first_le_of_read hm' hm (h k').symm) (Memory.first_le_of_read hm hm' (h k))
      subst hk
      have hb : b = b' := by simpa only [Memory.read_cons_same] using h k
      subst hb
      obtain ⟨hlt, _, hrest⟩ := Memory.wf_tail hm
      obtain ⟨hlt', _, hrest'⟩ := Memory.wf_tail hm'
      rw [ih rest' hrest hrest' (Memory.read_tail_eq hlt hlt' h)]

/-- A block write leaves every address outside the block. -/
theorem Memory.read_writeAll_outside {m : Memory} (hm : m.wf) {a c : Nat} {bs : List Byte}
    (h : c < a ∨ a + bs.length ≤ c) : (m.writeAll a bs).read c = m.read c := by
  induction bs generalizing m a with
  | nil => rfl
  | cons b rest ih =>
    rw [List.length_cons] at h
    rw [Memory.writeAll, ih (Memory.wf_write hm a b) (by omega), Memory.read_write hm, if_neg (by omega)]

/-- A block write puts byte `k` at the block's address plus `k`. -/
theorem Memory.read_writeAll_inside {m : Memory} (hm : m.wf) {a k : Nat} {bs : List Byte} (h : k < bs.length) :
    (m.writeAll a bs).read (a + k) = bs[k] := by
  induction bs generalizing m a k with
  | nil => exact absurd h (Nat.not_lt_zero k)
  | cons b rest ih =>
    have hw : Memory.wf (m.write a b) := Memory.wf_write hm a b
    rw [Memory.writeAll]
    cases k with
    | zero => rw [Memory.read_writeAll_outside hw (by omega), Memory.read_write hm]; simp
    | succ k =>
      have hk : k < rest.length := Nat.lt_of_succ_lt_succ h
      have hidx : a + (k + 1) = a + 1 + k := by omega
      rw [hidx, ih hw hk, List.getElem_cons_succ]

/-- An image that fits is written from the origin. -/
theorem loadImage_of_fits {image : List Byte} {s : State} (h : 0x200 + image.length ≤ s.cfg.memSize) :
    loadImage image s = .next (s.withMem (s.mem.writeAll 0x200 image)) := by
  have himage : imageFits s.cfg image = true := decide_eq_true h
  rw [loadImage, if_pos himage]
  rfl

/-- Settles O54: the loader is one block write at the origin. -/
theorem loaderPlacesTheImageAtTheOrigin : Obligations.LoaderPlacesTheImageAtTheOrigin := by
  unfold Obligations.LoaderPlacesTheImageAtTheOrigin
  intro image s hm hfits
  exact ⟨_, loadImage_of_fits hfits, Memory.wf_writeAll hm _ _, fun k hk => Memory.read_writeAll_inside hm hk,
    fun a ha => Memory.read_writeAll_outside hm ha, rfl⟩

/-- The store of a placed word has both addresses of the fetch. -/
theorem State.placeWord_room (s : State) (w : Word) :
    s.pc.toNat < (s.placeWord w).cfg.memSize ∧ (s.pc + 1#16).toNat < (s.placeWord w).cfg.memSize := by
  have hsize : (s.placeWord w).cfg.memSize = max s.cfg.memSize (max s.pc.toNat (s.pc + 1#16).toNat + 1) := rfl
  omega

/-- What a memory with a placed word reads. -/
theorem State.placeWord_read {s : State} (hm : s.mem.wf) (w : Word) (a : Nat) :
    (s.placeWord w).mem.read a = if a = (s.pc + 1#16).toNat then lowByte w else
      if a = s.pc.toNat then highByte w else s.mem.read a := by
  rw [State.placeWord_mem, Memory.read_write (Memory.wf_write hm _ _), Memory.read_write hm]

theorem State.placeWord_fetches {s : State} (hm : s.mem.wf) (w : Word) : (s.placeWord w).Fetches w := by
  obtain ⟨hpc, hpc1⟩ := s.placeWord_room w
  have hne : s.pc.toNat ≠ (s.pc + 1#16).toNat := by bv_omega
  refine ⟨hpc, hpc1, ?_⟩
  rw [State.placeWord_pc, State.placeWord_read hm, State.placeWord_read hm, if_neg hne, if_pos rfl, if_pos rfl,
    joinBytes_highByte_lowByte]

theorem State.withFetchWord_16 (s : State) {n : Nat} (h : n < 65536) :
    s.withFetchWord 16 n = s.placeWord (BitVec.ofNat 16 n) := by
  have hmod : n % 2 ^ 16 = n := Nat.mod_eq_of_lt h
  rw [State.withFetchWord, tableWord, hmod]

/-- Settles O55: the two bytes lie at different addresses, also where the second wraps to 0, and join to the word. -/
theorem placedWordIsTheNextFetched : Obligations.PlacedWordIsTheNextFetched := by
  unfold Obligations.PlacedWordIsTheNextFetched
  intro s n hm hn
  rw [s.withFetchWord_16 hn]
  refine ⟨(State.fetchWord_ok_iff _ _).2 (State.placeWord_fetches hm _), ?_, fun a ha ha1 => ?_⟩
  · rw [State.placeWord_mem]
    exact Memory.wf_write (Memory.wf_write hm _ _) _ _
  · rw [State.placeWord_read hm, if_neg ha1, if_neg ha]

end Sys2Proof.Machine
